-- ==== Sys2Proof/Word.lean ====
section
/-! DEFINITION. The one word type of the block and its plainest arithmetic (spec 00_scope.md R5, R7).
Every value of the block is unsigned; a byte is 8 bits, bits numbered from 0. -/

namespace Sys2Proof

/-- One byte, 0..255, unsigned (R5 `BYTE`, R7). -/
abbrev Byte := BitVec 8

/-- `NOT8(v)`, written `255 - v` (R7). -/
def not8 (v : Byte) : Byte := 255#8 - v

/-- `(e) mod 256` as a byte (R7): an exact unsigned sum narrowed to 8 bits. -/
def mod256 (e : Nat) : Byte := BitVec.ofNat 8 e

end Sys2Proof
end

