-- ==== Sys2Proof/Config.lean ====
section
/-! DEFINITION. The fixed parameters of the block, under the spec's own names (spec 00_scope.md R5).
The spec leaves no value free (92_eei_decisions.md: "No point is left OPEN"), so no constant here is opaque. -/

namespace Sys2Proof.Config

/-- Start and stop marker (R5, R70). -/
def FLAG : Byte := 0x7E#8

/-- Escape byte (R5, R70). -/
def ESC : Byte := 0x7D#8

/-- Escape XOR mask (R5, R121). -/
def XMASK : Byte := 0x20#8

/-- The four reserved values (R5, R120). -/
def RESERVED : List Byte := [0x11#8, 0x13#8, 0x7D#8, 0x7E#8]

/-- Largest payload an encoded frame carries (R5). -/
abbrev MAX_PAYLOAD : Nat := 255

/-- Cells of `OUT`, the source's transmit capacity (R5, R50). -/
abbrev TX_FRAME_CAP : Nat := 520

/-- Cells of `RAW`, the source's receive capacity (R5, R50). -/
abbrev RX_FRAME_CAP : Nat := 522

/-- Shortest receive frame (R5, R173). -/
abbrev MIN_RX_FRAME : Nat := 7

/-- Cells of `IN`, and the largest `INLEN` that CKSUM and STUFF take (R5, R24, R50). -/
abbrev IN_CAP : Nat := 255

/-- Cells of `RPAY` (R50). -/
abbrev RPAY_CAP : Nat := 255

/-- Width of `OP` (R5, R22; decision D4). -/
abbrev OP_WIDTH : Nat := 3

/-- Width of `INLEN` (R5, R22, R25; decision D2). -/
abbrev INLEN_WIDTH : Nat := 16

/-- Width of `RAWLEN`, `CUR`, `RNEXT` and `OUTLEN`, and of the cursor (R5, R22, R23, R33; decisions D2, D3). -/
abbrev INDEX_WIDTH : Nat := 10

/-- Width of `MAXLEN` (R5, R22; decision D2). -/
abbrev MAXLEN_WIDTH : Nat := 8

/-- Width of `ERR` (R5, R23; decision D5). -/
abbrev ERR_WIDTH : Nat := 4

end Sys2Proof.Config
end

