-- ==== Sys2Proof/Syntax.lean ====
section
/-! DEFINITION. The instructions of the block: one constructor per row of spec/opcode_table.json.
Five are the operations that `OP` selects at an issue (R80); their operands are whole request registers (R82), so the
constructors carry none. Seven are the wire symbols, the stuffed fields and the marker that the receive side reads at its
cursor (R70 to R73, R85). -/

namespace Sys2Proof

/-- One row of the opcode table each. -/
inductive Instr where
  /-- CKSUM, `OP` = 0: the 8-bit checksum reducer (R102). -/
  | cksum
  /-- STUFF, `OP` = 1: the byte-stuffer (R131). -/
  | stuff
  /-- DESTUFF, `OP` = 2: the byte-destuffer (R126). -/
  | destuff
  /-- ENCODE, `OP` = 3: the frame encoder (R151). -/
  | encode
  /-- DECODE, `OP` = 4: the frame decoder (R172). -/
  | decode
  /-- ESC_11, wire `7D 31`: the canonical escape of logical 0x11 (R71, R125). -/
  | esc11
  /-- ESC_13, wire `7D 33`: the canonical escape of logical 0x13 (R71, R125). -/
  | esc13
  /-- ESC_7D, wire `7D 5D`: the canonical escape of logical 0x7D (R71, R125). -/
  | esc7D
  /-- ESC_7E, wire `7D 5E`: the canonical escape of logical 0x7E (R71, R125). -/
  | esc7E
  /-- ESC_NONCANONICAL, wire `7D x` for any other `x` (R73, R125). -/
  | escNoncanonical (x : Byte)
  /-- FLAG, wire `7E` at a marker position (R70, R174, R181). -/
  | flag
  /-- LITERAL, any one wire byte at a field position but 0x7D (R72, R125). -/
  | literal (b : Byte)
deriving DecidableEq, Repr

/-- Whether the instruction is an operation selected by `OP` (R80); the others are wire symbols. -/
def Instr.isRequest : Instr → Bool
  | .cksum => true
  | .stuff => true
  | .destuff => true
  | .encode => true
  | .decode => true
  | .esc11 => false
  | .esc13 => false
  | .esc7D => false
  | .esc7E => false
  | .escNoncanonical _ => false
  | .flag => false
  | .literal _ => false

end Sys2Proof
end

