-- ==== Sys2Proof/WellFormed.lean ====
section
/-! DEFINITION. Which instruction terms stand for a row of the table with an operand the row admits. -/

namespace Sys2Proof

/-- The second bytes of the four canonical escape pairs (R71, R73). -/
def canonicalSeconds : List Byte := [0x31#8, 0x33#8, 0x5D#8, 0x5E#8]

/-- A literal is any byte but 0x7D (R72); a non-canonical escape has a second byte outside the four canonical ones (R73).
Every other constructor has no operand to check. -/
def Instr.wf : Instr → Bool
  | .cksum => true
  | .stuff => true
  | .destuff => true
  | .encode => true
  | .decode => true
  | .esc11 => true
  | .esc13 => true
  | .esc7D => true
  | .esc7E => true
  | .escNoncanonical x => !canonicalSeconds.contains x
  | .flag => true
  | .literal b => b != Config.ESC

end Sys2Proof
end

