-- ==== Sys2Proof/Decode.lean ====
section
/-! DEFINITION. The decoder (total, rejecting by name) and, after it, the encoder.
A request is read from the 3-bit `OP` register (R80, R81). A wire symbol is read from the bytes at the cursor, and which
symbols are possible depends on the position: a marker position or a field position (R85). -/

namespace Sys2Proof

/-- Why a word is no instruction. -/
inductive DecodeError where
  /-- `OP` holds 5, 6 or 7 (R81). -/
  | reservedOp (v : BitVec Config.OP_WIDTH)
  /-- no byte is left where a symbol is needed (R125, R181). -/
  | endOfBuffer
  /-- 0x7D is the last byte (R72, R125). -/
  | truncatedEscape
  /-- a byte other than 0x7E at a marker position (R174, R181). -/
  | notAMarker (b : Byte)
deriving DecidableEq, Repr

/-- Where the receive side stands: at the start or stop marker, or at a stuffed field (R85). -/
inductive Position where
  | marker
  | field
deriving DecidableEq, Repr

/-- The operation `OP` selects (R80); 5, 6 and 7 are reserved (R81). -/
def decodeOp (v : BitVec Config.OP_WIDTH) : Except DecodeError Instr :=
  if v = 0#3 then .ok .cksum
  else if v = 1#3 then .ok .stuff
  else if v = 2#3 then .ok .destuff
  else if v = 3#3 then .ok .encode
  else if v = 4#3 then .ok .decode
  else .error (.reservedOp v)

/-- The escape pair `7D x`: one of the four canonical ones, else non-canonical (R71, R73). -/
def decodeEscape (x : Byte) : Instr :=
  if x = 0x31#8 then .esc11
  else if x = 0x33#8 then .esc13
  else if x = 0x5D#8 then .esc7D
  else if x = 0x5E#8 then .esc7E
  else .escNoncanonical x

/-- The wire symbol at the front of `bs`, and the bytes after it. At a marker position the raw byte must be 0x7E (R174,
R181); at a field position 0x7D begins a pair and any other byte, 0x7E included, is a literal (R72, R73, R85). -/
def decodeWire (pos : Position) (bs : List Byte) : Except DecodeError (Instr × List Byte) :=
  match bs with
  | [] => .error .endOfBuffer
  | b :: rest =>
    match pos with
    | .marker => if b = Config.FLAG then .ok (.flag, rest) else .error (.notAMarker b)
    | .field =>
      if b = Config.ESC then
        match rest with
        | [] => .error .truncatedEscape
        | x :: rest' => .ok (decodeEscape x, rest')
      else .ok (.literal b, rest)

/-- The words of an instruction: a value of `OP`, or bytes on the wire, first byte first (R53). -/
inductive Code where
  | op (v : BitVec Config.OP_WIDTH)
  | wire (bs : List Byte)
deriving DecidableEq, Repr

/-- The encoder, from the tables of R80 (requests) and R71, R73 (wire symbols). -/
def encode : Instr → Code
  | .cksum => .op 0#3
  | .stuff => .op 1#3
  | .destuff => .op 2#3
  | .encode => .op 3#3
  | .decode => .op 4#3
  | .esc11 => .wire [0x7D#8, 0x31#8]
  | .esc13 => .wire [0x7D#8, 0x33#8]
  | .esc7D => .wire [0x7D#8, 0x5D#8]
  | .esc7E => .wire [0x7D#8, 0x5E#8]
  | .escNoncanonical x => .wire [0x7D#8, x]
  | .flag => .wire [0x7E#8]
  | .literal b => .wire [b]

/-- Where a wire symbol may be read: FLAG at a marker position, every other symbol at a field position (R85). -/
def Instr.position (i : Instr) : Position :=
  if i = .flag then .marker else .field

/-- The symbol the stuffer writes for the logical byte `b` (R71, R121). -/
def symbolOf (b : Byte) : Instr :=
  if b = 0x11#8 then .esc11
  else if b = 0x13#8 then .esc13
  else if b = 0x7D#8 then .esc7D
  else if b = 0x7E#8 then .esc7E
  else .literal b

/-- The bytes of a wire word of the opcode table: the table numbers an 8-bit word as its one byte and a 16-bit word with
the FIRST wire byte in bits 15..8 (its rows' `prefix` field). An 8-bit word is followed by a zero byte (log entry 9). -/
def tableWireBytes (nbits w : Nat) : List Byte :=
  if nbits = 8 then [BitVec.ofNat 8 w, 0#8]
  else if nbits = 16 then [BitVec.ofNat 8 (w / 256), BitVec.ofNat 8 w]
  else []

/-- The position at which the table reads a wire word: its FLAG row stands before its LITERAL row, so a first byte 0x7E is
read as the marker (R85). -/
def tablePosition (bs : List Byte) : Position :=
  if bs.head? = some Config.FLAG then .marker else .field

/-- Whether a table word is a request: the table's rows are tried in the table's own order, so a word of at most 8 bits
whose value is an operation's `OP` is that operation, and a word of less than 8 bits can be nothing but an `OP` value
(log entry 9). -/
def isRequestWord (nbits w : Nat) : Bool :=
  decide (nbits < 8) || (decide (nbits = 8) && decide (w < 5))

/-- What the decoder reads from a word of the opcode table, the bits numbered as the table numbers them. -/
def decodeTableWord (nbits w : Nat) : Option Instr :=
  if isRequestWord nbits w then
    if w < 8 then (decodeOp (BitVec.ofNat Config.OP_WIDTH w)).toOption else none
  else
    ((decodeWire (tablePosition (tableWireBytes nbits w)) (tableWireBytes nbits w)).toOption).map Prod.fst

end Sys2Proof
end

