-- ==== Sys2Proof/Machine/State.lean ====
section
/-! DEFINITION. The state of the block as plain data (spec 10_state.md R20 to R43, 20_memory.md R50 to R53), the reasons a
step can stop, and the state after reset (70_reset_and_hazards.md R240).
⊥, "no value", is the spec's own register content (R9, R40, R41), and it is the value the spec gives for the reset of every
register but `RSTATE` (R22, R23, R240). Writing it as `none` is the model's choice (log entry 1). -/

namespace Sys2Proof.Machine

/-- A byte buffer: cells in strictly rising order of index. A cell that is not listed holds ⊥ (R9), so no listed cell
equals what an unlisted one reads as, and equal buffers are equal lists. -/
abbrev Memory := List Host.Cell

/-- The four byte-addressed spaces (R50): `IN`, `RAW`, `OUT`, `RPAY`. -/
inductive Space where
  | inSpace
  | rawSpace
  | outSpace
  | rpaySpace
deriving DecidableEq, Repr

/-- The scalar request registers (R22). -/
inductive ReqName where
  | op | addr | cmd | hsum | dlen | inlen | rawlen | cur | maxlen
deriving DecidableEq, Repr

/-- The scalar result registers (R23). -/
inductive ResName where
  | rstate | err | rbyte | rnext | outlen | raddr | rcmd | rstatus | rdlen
deriving DecidableEq, Repr

/-- A register or a buffer cell, by name and index (R22, R23, R50). -/
inductive Place where
  | req (r : ReqName)
  | res (r : ResName)
  | cell (b : Space) (i : Nat)
deriving DecidableEq, Repr

/-- The block's error codes by name (R210). -/
inductive ErrKind where
  | payloadTooLarge
  | frameTooShort
  | missingStartMarker
  | missingStopMarker
  | truncatedFrame
  | checksumMismatch
  | incompleteResponse
deriving DecidableEq, Repr

/-- Why a step or a host access faults. A fault is the model's outcome, not a value of `ERR` (R218). -/
inductive Fault where
  /-- A read of a place that holds ⊥, by the block during an operation or by the host: the spec's own fault (R41, R218,
  R243; 92_eei_decisions.md D7). Safe: it errs toward unprovable (D7). -/
  | noValue (p : Place)
  /-- A host read of any buffer, or write to `IN` or `RAW`, at a cell index the buffer does not have (R50): the model's choice
  (log entry 8). Safe: no such cell exists. -/
  | noCell (b : Space) (i : Nat)
deriving DecidableEq, Repr

/-- Why a step or a host access is refused: the model gives it no step (R218). Every one is safe. -/
inductive Refusal where
  /-- An instruction that has no meaning yet, named by exec's arm. Safe. -/
  | notModelled (mnemonic : String)
  /-- An issue with `OP` in 5..7 (R81). Safe (D4). -/
  | reservedOp (v : BitVec Config.OP_WIDTH)
  /-- An issue with `OP` = ⊥ (R81). Safe (D4). -/
  | noOperation
  /-- CKSUM or STUFF with `INLEN` > 255 (R24). Safe (D9). -/
  | inputTooLong
  /-- DESTUFF or DECODE with `RAWLEN` > 522 (R24). Safe (D9). -/
  | rawTooLong
  /-- A host write to a result register or buffer (R43); at an index beyond `OUT` or `RPAY` it is the model's choice (log entry
  8). Safe (D3). -/
  | resultRegister (p : Place)
  /-- A host action while an operation is in progress: none can fall there (R43, R241). Safe. -/
  | insideOperation
  /-- A wire symbol while no DESTUFF or DECODE is in progress: no cursor exists then (R33, R34). Safe. -/
  | outsideOperation
deriving DecidableEq, Repr

/-- The request registers (R22): the host writes them, the block only reads them. -/
structure ReqRegs where
  /-- `OP`, 3 bits. -/
  op : Option (BitVec Config.OP_WIDTH)
  /-- `ADDR`, 8 bits. -/
  addr : Option Byte
  /-- `CMD`, 8 bits. -/
  cmd : Option Byte
  /-- `HSUM`, 8 bits. -/
  hsum : Option Byte
  /-- `DLEN`, 8 bits. -/
  dlen : Option Byte
  /-- `INLEN`, 16 bits (R25). -/
  inlen : Option (BitVec Config.INLEN_WIDTH)
  /-- `IN[0..254]`. -/
  inBuf : Memory
  /-- `RAWLEN`, 10 bits. -/
  rawlen : Option (BitVec Config.INDEX_WIDTH)
  /-- `RAW[0..521]`. -/
  rawBuf : Memory
  /-- `CUR`, 10 bits. -/
  cur : Option (BitVec Config.INDEX_WIDTH)
  /-- `MAXLEN`, 8 bits. -/
  maxlen : Option (BitVec Config.MAXLEN_WIDTH)
deriving DecidableEq, Repr

/-- The result registers (R23): the block writes them, the host only reads them. -/
structure ResRegs where
  /-- `RSTATE`, 2 bits: 0 IDLE, 1 OK, 2 ERR, 3 never written. It is never ⊥ (R23, R40). -/
  rstate : BitVec 2
  /-- `ERR`, 4 bits (R210). -/
  err : Option (BitVec Config.ERR_WIDTH)
  /-- `RBYTE`, 8 bits. -/
  rbyte : Option Byte
  /-- `RNEXT`, 10 bits. -/
  rnext : Option (BitVec Config.INDEX_WIDTH)
  /-- `OUTLEN`, 10 bits. -/
  outlen : Option (BitVec Config.INDEX_WIDTH)
  /-- `OUT[0..519]`. -/
  outBuf : Memory
  /-- `RADDR`, 8 bits. -/
  raddr : Option Byte
  /-- `RCMD`, 8 bits. -/
  rcmd : Option Byte
  /-- `RSTATUS`, 8 bits: data copied from the frame, not a flag of the block (R32). -/
  rstatus : Option Byte
  /-- `RDLEN`, 8 bits. -/
  rdlen : Option Byte
  /-- `RPAY[0..254]`. -/
  rpay : Memory
deriving DecidableEq, Repr

/-- Every result register ⊥, as an issue leaves them before the operation computes (R40); `RSTATE` is the one register
that has no ⊥ and stands at IDLE here. -/
def ResRegs.blank : ResRegs :=
  { rstate := 0#2, err := none, rbyte := none, rnext := none, outlen := none, outBuf := [], raddr := none,
    rcmd := none, rstatus := none, rdlen := none, rpay := [] }

/-- The logical header of a receive frame: address, command, status, declared_length (R76, R170). -/
structure Header where
  addr : Byte
  cmd : Byte
  status : Byte
  dlen : Byte
deriving DecidableEq, Repr

/-- The receive side's internal transient state inside ONE operation: the cursor `cur` (R33), the decoder phase (R34: START,
HEADER, PAYLOAD, CHECKSUM, STOP), and what the phases before it have destuffed (R171). `destuff` is a DESTUFF operation,
which has a cursor and no phase. -/
inductive Walk where
  | destuff (cur : BitVec Config.INDEX_WIDTH)
  /-- at `RAW[0]`; that the cursor stands at 0 here is the model's choice (log entry 2). -/
  | start (cur : BitVec Config.INDEX_WIDTH)
  /-- the header bytes destuffed so far, first one first. -/
  | header (cur : BitVec Config.INDEX_WIDTH) (got : List Byte)
  /-- the header and the payload bytes obtained so far. -/
  | payload (cur : BitVec Config.INDEX_WIDTH) (h : Header) (pay : List Byte)
  | checksum (cur : BitVec Config.INDEX_WIDTH) (h : Header) (pay : List Byte)
  | stop (cur : BitVec Config.INDEX_WIDTH) (h : Header) (pay : List Byte)
deriving DecidableEq, Repr

/-- The cursor `cur` (R33). -/
def Walk.cursor : Walk → BitVec Config.INDEX_WIDTH
  | .destuff cur => cur
  | .start cur => cur
  | .header cur _ => cur
  | .payload cur _ _ => cur
  | .checksum cur _ _ => cur
  | .stop cur _ _ => cur

/-- The machine: request registers, result registers, and the receive side's transient state, which is absent between
operations (R33, R34; log entry 2). -/
structure State where
  req : ReqRegs
  res : ResRegs
  walk : Option Walk
deriving DecidableEq, Repr

/-- After reset every register is ⊥ but `RSTATE`, which is IDLE, and no operation is in progress (R22, R23, R240). -/
def State.reset : State :=
  { req :=
      { op := none, addr := none, cmd := none, hsum := none, dlen := none, inlen := none, inBuf := [], rawlen := none,
        rawBuf := [], cur := none, maxlen := none }
    res := ResRegs.blank
    walk := none }

/-- How an operation's rule can leave its pseudocode before the end: `raise E` (R8, R211), a read of ⊥ (R41), or a request
the model gives no step (R24, R81). -/
inductive Stop where
  | raised (e : ErrKind)
  | fault (f : Fault)
  | refused (r : Refusal)
deriving DecidableEq, Repr

/-- What one wire symbol does to the operation in progress: it goes on, or it ends with these result registers. -/
inductive Move where
  | more (w : Walk)
  | done (r : ResRegs)
deriving DecidableEq, Repr

/-- The outcomes of a step. -/
abbrev Outcome := Host.Outcome State Fault Refusal

end Sys2Proof.Machine
end

