-- ==== Sys2Proof/Machine/Flags.lean ====
section
/-! DEFINITION. The block has no condition codes (R32); the only status it reports is `RSTATE` and `ERR`. -/

namespace Sys2Proof.Machine

/-- `RSTATE` = 0: no operation since reset (R23). -/
def IDLE : BitVec 2 := 0#2

/-- `RSTATE` = 1: the last operation succeeded (R23, R40). -/
def OK : BitVec 2 := 1#2

/-- `RSTATE` = 2: the last operation raised an error (R23, R40). -/
def ERR : BitVec 2 := 2#2

/-- The numeric value `ERR` holds for an error kind (R210). -/
def ErrKind.code : ErrKind → BitVec Config.ERR_WIDTH
  | .payloadTooLarge => 1#4
  | .frameTooShort => 2#4
  | .missingStartMarker => 3#4
  | .missingStopMarker => 4#4
  | .truncatedFrame => 5#4
  | .checksumMismatch => 6#4
  | .incompleteResponse => 7#4

end Sys2Proof.Machine
end

