-- ==== Sys2Proof/Machine/Ops.lean ====
section
/-! DEFINITION. The named operations over buffers and registers, and the ends of an operation: `finish` and `raise`
(R8, R40, R211). `raise` is the one shared operation of every error; the block has no trap entry, saves no state and has no
trap return (R215, R216), so nothing stands beside it. -/

namespace Sys2Proof.Machine

/-- Read cell `i`; `none` is ⊥ (R8 `BUF[i]`, R9). -/
def Memory.read : Memory → Nat → Option Byte
  | [], _ => none
  | (j, b) :: m, i => if i = j then some b else Memory.read m i

/-- Write one byte to cell `i` (R8 `BUF[i] <- v`, R52), keeping the cells in strictly rising order. -/
def Memory.write : Memory → Nat → Byte → Memory
  | [], i, v => [(i, v)]
  | (j, b) :: m, i, v =>
    if i < j then (i, v) :: (j, b) :: m
    else if i = j then (i, v) :: m
    else (j, b) :: Memory.write m i v

/-- Write a run of bytes to ascending cells from `i` on (R53: index order is wire order). -/
def Memory.writeAll : Nat → List Byte → Memory → Memory
  | _, [], m => m
  | i, b :: bs, m => Memory.writeAll (i + 1) bs (Memory.write m i b)

/-- A buffer whose cells 0, 1, ... hold `bs`, every other cell ⊥. -/
def Memory.ofBytes (bs : List Byte) : Memory := Memory.writeAll 0 bs []

/-- Canonical form of a buffer with `cap` cells: indices strictly rising and below `cap`. -/
def Memory.wf (cap : Nat) (m : Memory) : Bool :=
  decide ((m.map Prod.fst).Pairwise (· < ·)) && m.all (fun c => decide (c.1 < cap))

/-- The number of cells of a space (R50). -/
def Space.cap : Space → Nat
  | .inSpace => Config.IN_CAP
  | .rawSpace => Config.RX_FRAME_CAP
  | .outSpace => Config.TX_FRAME_CAP
  | .rpaySpace => Config.RPAY_CAP

/-- The buffer of a space. -/
def State.buffer (s : State) : Space → Memory
  | .inSpace => s.req.inBuf
  | .rawSpace => s.req.rawBuf
  | .outSpace => s.res.outBuf
  | .rpaySpace => s.res.rpay

/-- `finish` with the result registers `r`, `RSTATE <- 1` (R8, R40). No request register changes, and no transient state is
left (R33, R34). -/
def finish (r : ResRegs) (s : State) : State :=
  { s with res := { r with rstate := OK }, walk := none }

/-- `raise E`: every result register ⊥ but `ERR <- E` and `RSTATE <- 2` (R40, R211, R213). No request register changes. -/
def raise (e : ErrKind) (s : State) : State :=
  { s with res := { ResRegs.blank with err := some e.code, rstate := ERR }, walk := none }

/-- The outcome of a rule that left its pseudocode early. -/
def halt (s : State) : Stop → Outcome
  | .raised e => .next (raise e s)
  | .fault f => .fault f
  | .refused r => .refused r

/-- The outcome of a whole operation: the result registers its rule writes, or the way it left. -/
def conclude (s : State) : Except Stop ResRegs → Outcome
  | .ok r => .next (finish r s)
  | .error e => halt s e

/-- The outcome of one wire symbol inside an operation. -/
def proceed (s : State) : Except Stop Move → Outcome
  | .ok (.more w) => .next { s with walk := some w }
  | .ok (.done r) => .next (finish r s)
  | .error e => halt s e

/-- The block begins an operation that walks `RAW`: every result register but `RSTATE` becomes ⊥ (R40) and the transient
state appears (R33, R34). -/
def openWalk (w : Walk) (s : State) : State :=
  { s with res := { ResRegs.blank with rstate := s.res.rstate }, walk := some w }

end Sys2Proof.Machine
end

