-- ==== Sys2Proof/Machine/Operands.lean ====
section
/-! DEFINITION. Every operand form: a whole request register or the front of a buffer (R82), and the operation `OP` selects.
A read of ⊥ is a fault (R41); the range conditions of R24 are checked first, as conditions of the issue (log entry 4). -/

namespace Sys2Proof.Machine

/-- Read a register or cell that the operation needs. ⊥ is no value but a fault, as R41 and R218 say (decision D7). -/
def operand {α : Type} (p : Place) : Option α → Except Stop α
  | some v => .ok v
  | none => .error (.fault (.noValue p))

/-- Read cell `i` of `RAW` (R8). -/
def readRaw (raw : Memory) (i : Nat) : Except Stop Byte :=
  operand (.cell .rawSpace i) (raw.read i)

/-- The bytes `IN[i], IN[i+1], ...`, `k` of them (R41: exactly the cells the pseudocode reads). -/
def readInput (m : Memory) : Nat → Nat → Except Stop (List Byte)
  | 0, _ => .ok []
  | k + 1, i => do
    let b ← operand (.cell .inSpace i) (m.read i)
    let bs ← readInput m k (i + 1)
    .ok (b :: bs)

/-- `INLEN` (R22), of any value (ENCODE, R24). -/
def inputLength (s : State) : Except Stop Nat := do
  let n ← operand (.req .inlen) s.req.inlen
  .ok n.toNat

/-- `INLEN` for CKSUM and STUFF, whose issue is refused above 255 (R24). -/
def boundedInputLength (s : State) : Except Stop Nat := do
  let n ← inputLength s
  if n > Config.IN_CAP then .error (.refused .inputTooLong) else .ok n

/-- `RAWLEN` for DESTUFF and DECODE, whose issue is refused above 522 (R24). -/
def rawLength (s : State) : Except Stop Nat := do
  let n ← operand (.req .rawlen) s.req.rawlen
  if n.toNat > Config.RX_FRAME_CAP then .error (.refused .rawTooLong) else .ok n.toNat

/-- The operation an issue names: `OP` = ⊥ and the reserved values are refused (R80, R81). -/
def fetchOp (s : State) : Except Stop Instr :=
  match s.req.op with
  | none => .error (.refused .noOperation)
  | some v =>
    match decodeOp v with
    | .ok i => .ok i
    | .error _ => .error (.refused (.reservedOp v))

end Sys2Proof.Machine
end

