-- ==== Sys2Proof/Machine/Checksum.lean ====
section
/-! DEFINITION. The 8-bit checksum reducer (spec 40_checksum.md). -/

namespace Sys2Proof.Machine

/-- `cksum(hs, dl, p) = NOT8((hs + dl + p[0] + ... ) mod 256)` (R101). -/
def cksum (hs dl : Byte) (p : List Byte) : Byte :=
  not8 (mod256 (hs.toNat + dl.toNat + (p.map BitVec.toNat).sum))

/-- CKSUM (R102). `DLEN` need not equal `INLEN`. -/
def execCksum (s : State) : Outcome :=
  conclude s (do
    let n ← boundedInputLength s
    let p ← readInput s.req.inBuf n 0
    let hs ← operand (.req .hsum) s.req.hsum
    let dl ← operand (.req .dlen) s.req.dlen
    .ok { ResRegs.blank with rbyte := some (cksum hs dl p) })

end Sys2Proof.Machine
end

