-- ==== Sys2Proof/Machine/Stuffing.lean ====
section
/-! DEFINITION. The byte-stuffer and the byte-destuffer (spec 41_stuffing.md). -/

namespace Sys2Proof.Machine

/-- `isReserved(b)` (R120). -/
def isReserved (b : Byte) : Bool := Config.RESERVED.contains b

/-- `stuffByte(b)`, the stuffed field of one logical byte (R121). -/
def stuffByte (b : Byte) : List Byte :=
  if isReserved b then [Config.ESC, b ^^^ Config.XMASK] else [b]

/-- `stuff(s)` (R122). -/
def stuff : List Byte → List Byte
  | [] => []
  | b :: s => stuffByte b ++ stuff s

/-- `destuff(buf, n, i)`: the logical byte and the next index (R125). It reads `buf[i + 1]` only after an escape that is not
the last byte. -/
def destuff (buf : Memory) (n i : Nat) : Except Stop (Byte × Nat) :=
  if n ≤ i then .error (.raised .truncatedFrame)
  else do
    let b ← readRaw buf i
    if b = Config.ESC then
      if i + 1 = n then .error (.raised .truncatedFrame)
      else do
        let x ← readRaw buf (i + 1)
        .ok (x ^^^ Config.XMASK, i + 2)
    else .ok (b, i + 1)

/-- Result registers with the bytes `o` in `OUT` and `OUTLEN` = |o| (R131, R151). -/
def outResult (o : List Byte) : ResRegs :=
  { ResRegs.blank with outlen := some (BitVec.ofNat Config.INDEX_WIDTH o.length), outBuf := Memory.ofBytes o }

/-- STUFF (R131). -/
def execStuff (s : State) : Outcome :=
  conclude s (do
    let n ← boundedInputLength s
    let p ← readInput s.req.inBuf n 0
    .ok (outResult (stuff p)))

/-- DESTUFF (R126). -/
def execDestuff (s : State) : Outcome :=
  conclude s (do
    let n ← rawLength s
    let i ← operand (.req .cur) s.req.cur
    let (b, nx) ← destuff s.req.rawBuf n i.toNat
    .ok { ResRegs.blank with rbyte := some b, rnext := some (BitVec.ofNat Config.INDEX_WIDTH nx) })

end Sys2Proof.Machine
end

