-- ==== Sys2Proof/Machine/Encoder.lean ====
section
/-! DEFINITION. The frame encoder (spec 42_frame_encoder.md). -/

namespace Sys2Proof.Machine

/-- The transmit header sum `(address + command) mod 256` (R83, R104, R156). -/
def txHeaderSum (a c : Byte) : Byte := mod256 (a.toNat + c.toNat)

/-- `encodeFrame(a, c, p)`, with p of any length (R153). -/
def encodeFrame (a c : Byte) (p : List Byte) : Except Stop (List Byte) :=
  let len := BitVec.ofNat 8 p.length
  if p.length > Config.MAX_PAYLOAD then .error (.raised .payloadTooLarge)
  else
    let cs := cksum (txHeaderSum a c) len p
    .ok ([Config.FLAG] ++ stuff ([a, c, len] ++ p ++ [cs]) ++ [Config.FLAG])

/-- ENCODE (R151). The length check comes first and reads neither `ADDR`, `CMD` nor any cell of `IN` (R152). -/
def execEncode (s : State) : Outcome :=
  conclude s (do
    let n ← inputLength s
    if n > Config.MAX_PAYLOAD then .error (.raised .payloadTooLarge)
    else do
      let p ← readInput s.req.inBuf n 0
      let a ← operand (.req .addr) s.req.addr
      let c ← operand (.req .cmd) s.req.cmd
      let f ← encodeFrame a c p
      .ok (outResult f))

end Sys2Proof.Machine
end

