-- ==== Sys2Proof/Machine/Decoder.lean ====
section
/-! DEFINITION. The frame decoder (spec 43_frame_decoder.md). -/

namespace Sys2Proof.Machine

/-- The receive header sum `(address + command + status) mod 256` (R83, R104, R179). -/
def Header.sum (h : Header) : Byte := mod256 (h.addr.toNat + h.cmd.toNat + h.status.toNat)

/-- The checksum the decoder expects (R179). -/
def Header.expected (h : Header) (pay : List Byte) : Byte := cksum h.sum h.dlen pay

/-- Step 2, HEADER: four logical fields in order (R175). -/
def headerFields (raw : Memory) (n cur : Nat) : Except Stop (Header × Nat) := do
  let (addr, cur) ← destuff raw n cur
  let (cmd, cur) ← destuff raw n cur
  let (status, cur) ← destuff raw n cur
  let (dlen, cur) ← destuff raw n cur
  .ok ({ addr, cmd, status, dlen }, cur)

/-- Step 3, PAYLOAD: `k` is how many bytes may still be obtained, the lesser of D and `MAXLEN` less those obtained; the loop
ends there or where the cursor meets `RAWLEN` (R176). -/
def payloadFields (raw : Memory) (n : Nat) : Nat → Nat → List Byte → Except Stop (List Byte × Nat)
  | 0, cur, pay => .ok (pay, cur)
  | k + 1, cur, pay =>
    if cur < n then do
      let (b, cur) ← destuff raw n cur
      payloadFields raw n k cur (pay ++ [b])
    else .ok (pay, cur)

/-- Step 5, STOP: the raw byte at the cursor, compared without destuffing (R181). -/
def stopMarker (raw : Memory) (n cur : Nat) : Except Stop Unit :=
  if n ≤ cur then .error (.raised .missingStopMarker)
  else do
    let b ← readRaw raw cur
    if b = Config.FLAG then .ok () else .error (.raised .missingStopMarker)

/-- `decodeFrame(raw, n, maxlen)` (R171): length gate (R173), START (R174), HEADER (R175), PAYLOAD (R176, R177), CHECKSUM
(R179, R180), STOP (R181), in that order (R190). -/
def decodeFrame (raw : Memory) (n : Nat) (maxlen : BitVec Config.MAXLEN_WIDTH) : Except Stop (Header × List Byte) :=
  if n < Config.MIN_RX_FRAME then .error (.raised .frameTooShort)
  else do
    let b0 ← readRaw raw 0
    if b0 ≠ Config.FLAG then .error (.raised .missingStartMarker)
    else do
      let (h, cur) ← headerFields raw n 1
      let (pay, cur) ← payloadFields raw n (min h.dlen.toNat maxlen.toNat) cur []
      if pay.length < h.dlen.toNat then .error (.raised .incompleteResponse)
      else do
        let (crc, cur) ← destuff raw n cur
        if crc ≠ h.expected pay then .error (.raised .checksumMismatch)
        else do
          stopMarker raw n cur
          .ok (h, pay)

/-- The result registers of a successful DECODE (R172). -/
def frameResult (h : Header) (pay : List Byte) : ResRegs :=
  { ResRegs.blank with
    raddr := some h.addr, rcmd := some h.cmd, rstatus := some h.status, rdlen := some h.dlen,
    rpay := Memory.ofBytes pay }

/-- DECODE (R172). -/
def execDecode (s : State) : Outcome :=
  conclude s (do
    let n ← rawLength s
    let m ← operand (.req .maxlen) s.req.maxlen
    let (h, pay) ← decodeFrame s.req.rawBuf n m
    .ok (frameResult h pay))

end Sys2Proof.Machine
end

