-- ==== Sys2Proof/Machine/Wire.lean ====
section
/-! DEFINITION. The wire symbols: what reading one does to the DESTUFF or DECODE in progress, by its phase (R33, R34, R125,
R170 to R181). An issue runs the whole operation in one step (R21); these meanings are the same operation taken one symbol
at a time, from the transient state that R33 and R34 name (log entry 2). -/

namespace Sys2Proof.Machine

/-- The end of each turn of step 3: go on while fewer than D and fewer than `MAXLEN` bytes are obtained and the cursor is
below `RAWLEN` (R176); else IncompleteResponse or on to step 4 (R177). -/
def payloadGate (s : State) (cur : BitVec Config.INDEX_WIDTH) (h : Header) (pay : List Byte) : Except Stop Move := do
  let n ← rawLength s
  let m ← operand (.req .maxlen) s.req.maxlen
  if pay.length < h.dlen.toNat ∧ pay.length < m.toNat ∧ cur.toNat < n then .ok (.more (.payload cur h pay))
  else if pay.length < h.dlen.toNat then .error (.raised .incompleteResponse)
  else .ok (.more (.checksum cur h pay))

/-- Read one symbol of `width` wire bytes whose first raw byte is `first` and whose logical byte is `b`. A marker phase
compares the raw byte (R174, R181); every other phase takes the logical byte and advances the cursor (R125, R175). -/
def symbolMove (first b : Byte) (width : BitVec Config.INDEX_WIDTH) (s : State) : Except Stop Move :=
  match s.walk with
  | none => .error (.refused .outsideOperation)
  | some (.destuff cur) => .ok (.done { ResRegs.blank with rbyte := some b, rnext := some (cur + width) })
  | some (.start cur) =>
    if first = Config.FLAG then .ok (.more (.header (cur + 1) []))
    else .error (.raised .missingStartMarker)
  | some (.header cur got) =>
    match got with
    | [a, c, st] => payloadGate s (cur + width) ⟨a, c, st, b⟩ []
    | _ => .ok (.more (.header (cur + width) (got ++ [b])))
  | some (.payload cur h pay) => payloadGate s (cur + width) h (pay ++ [b])
  | some (.checksum cur h pay) =>
    if b = h.expected pay then .ok (.more (.stop (cur + width) h pay))
    else .error (.raised .checksumMismatch)
  | some (.stop _ h pay) =>
    if first = Config.FLAG then .ok (.done (frameResult h pay))
    else .error (.raised .missingStopMarker)

/-- The outcome of reading one symbol. -/
def takeSymbol (first b : Byte) (width : BitVec Config.INDEX_WIDTH) (s : State) : Outcome :=
  proceed s (symbolMove first b width s)

/-- ESC_11: `7D 31`, logical 0x11, two wire bytes (R71, R125). -/
def execEsc11 (s : State) : Outcome := takeSymbol 0x7D#8 0x11#8 2#10 s

/-- ESC_13: `7D 33`, logical 0x13, two wire bytes (R71, R125). -/
def execEsc13 (s : State) : Outcome := takeSymbol 0x7D#8 0x13#8 2#10 s

/-- ESC_7D: `7D 5D`, logical 0x7D, two wire bytes (R71, R125). -/
def execEsc7D (s : State) : Outcome := takeSymbol 0x7D#8 0x7D#8 2#10 s

/-- ESC_7E: `7D 5E`, logical 0x7E, two wire bytes (R71, R125). -/
def execEsc7E (s : State) : Outcome := takeSymbol 0x7D#8 0x7E#8 2#10 s

/-- ESC_NONCANONICAL: `7D x`, logical `x XOR 0x20`, two wire bytes (R73, R125, 90_conflicts.md C3). -/
def execEscNoncanonical (x : Byte) (s : State) : Outcome := takeSymbol 0x7D#8 (x ^^^ Config.XMASK) 2#10 s

/-- FLAG: `7E` at a marker position (R174, R181); where a field is expected it reads as itself (R73). -/
def execFlag (s : State) : Outcome := takeSymbol 0x7E#8 0x7E#8 1#10 s

/-- LITERAL: one wire byte that reads as itself (R125). -/
def execLiteral (b : Byte) (s : State) : Outcome := takeSymbol b b 1#10 s

/-- The position of each phase: START and STOP read a marker, every other phase a field (R85, R174, R181). -/
def Walk.position : Walk → Position
  | .destuff _ => .field
  | .start _ => .marker
  | .header _ _ => .field
  | .payload _ _ _ => .field
  | .checksum _ _ _ => .field
  | .stop _ _ _ => .marker

/-- The error of a phase that finds the cursor at or beyond `RAWLEN` (R125, R175, R177, R179, R181). -/
def Walk.endError : Walk → ErrKind
  | .destuff _ => .truncatedFrame
  | .start _ => .missingStartMarker
  | .header _ _ => .truncatedFrame
  | .payload _ _ _ => .incompleteResponse
  | .checksum _ _ _ => .truncatedFrame
  | .stop _ _ _ => .missingStopMarker

/-- The error of a phase whose bytes are no symbol: a truncated escape at a field, a wrong byte at a marker
(R125, R174, R181). -/
def Walk.malformedError : Walk → ErrKind
  | .destuff _ => .truncatedFrame
  | .start _ => .missingStartMarker
  | .header _ _ => .truncatedFrame
  | .payload _ _ _ => .truncatedFrame
  | .checksum _ _ _ => .truncatedFrame
  | .stop _ _ _ => .missingStopMarker

/-- The wire bytes a phase looks at: one at a marker; at a field a second one only after 0x7D and only below `RAWLEN`
(R72, R125). -/
def symbolBytes (raw : Memory) (n cur : Nat) (pos : Position) : Except Stop (List Byte) := do
  let b ← readRaw raw cur
  if pos = .field ∧ b = Config.ESC ∧ cur + 1 ≠ n then do
    let x ← readRaw raw (cur + 1)
    .ok [b, x]
  else .ok [b]

/-- The wire symbol at the cursor of the operation in progress. -/
def fetchSymbol (w : Walk) (s : State) : Except Stop Instr := do
  let n ← rawLength s
  if n ≤ w.cursor.toNat then .error (.raised w.endError)
  else do
    let bs ← symbolBytes s.req.rawBuf n w.cursor.toNat w.position
    match decodeWire w.position bs with
    | .ok (i, _) => .ok i
    | .error _ => .error (.raised w.malformedError)

/-- The beginning of DECODE, up to START: operands, range condition and length gate (R172, R173). R33 gives the cursor its
first value, 1, at HEADER; in START, where `RAW[0]` is compared (R174), it is 0, the model's choice (log entry 2). -/
def openDecode (s : State) : Outcome :=
  match (do
      let n ← rawLength s
      let _ ← operand (.req .maxlen) s.req.maxlen
      if n < Config.MIN_RX_FRAME then Except.error (Stop.raised .frameTooShort) else .ok ()) with
  | .ok () => .next (openWalk (.start 0#10) s)
  | .error e => halt s e

/-- The beginning of DESTUFF: operands and range condition; the cursor starts at `CUR` (R33, R126). -/
def openDestuff (s : State) : Outcome :=
  match (do
      let _ ← rawLength s
      operand (.req .cur) s.req.cur) with
  | .ok i => .next (openWalk (.destuff i) s)
  | .error e => halt s e

end Sys2Proof.Machine
end

