-- ==== Sys2Proof/Machine/Dispatch.lean ====
section
/-! DEFINITION. One arm per row of spec/opcode_table.json. -/

namespace Sys2Proof.Machine

def exec (i : Instr) (s : State) : Host.Outcome State Fault Refusal :=
  match i with
  | .cksum => Sys2Proof.Machine.execCksum s
  | .stuff => Sys2Proof.Machine.execStuff s
  | .destuff => Sys2Proof.Machine.execDestuff s
  | .encode => Sys2Proof.Machine.execEncode s
  | .decode => Sys2Proof.Machine.execDecode s
  | .esc11 => Sys2Proof.Machine.execEsc11 s
  | .esc13 => Sys2Proof.Machine.execEsc13 s
  | .esc7D => Sys2Proof.Machine.execEsc7D s
  | .esc7E => Sys2Proof.Machine.execEsc7E s
  | .escNoncanonical x => Sys2Proof.Machine.execEscNoncanonical x s
  | .flag => Sys2Proof.Machine.execFlag s
  | .literal b => Sys2Proof.Machine.execLiteral b s

end Sys2Proof.Machine
end

