-- ==== Sys2Proof/Machine/Step.lean ====
section
/-! DEFINITION. One step. Between operations a step is an ISSUE: the block performs the whole operation named by `OP`
(R21). Inside an operation it is the next wire symbol of `RAW` at the cursor (R33, R34; log entry 2). -/

namespace Sys2Proof.Machine

/-- The instruction the next step runs: the operation in `OP`, or the symbol at the cursor. -/
def fetch (s : State) : Except Stop Instr :=
  match s.walk with
  | none => fetchOp s
  | some w => fetchSymbol w s

/-- One step. -/
def step (s : State) : Host.Outcome State Fault Refusal :=
  match fetch s with
  | .ok i => exec i s
  | .error e => halt s e

/-- `s` with a whole request as the host writes it (R84): `OP` as given, and every scalar operand register the operation
reads (R82) zero, as the operand words above the table's bits are; lengths of zero read no cell. A reserved `OP` has no
operand (R81). -/
def State.withRequestWord (s : State) (w : Nat) : State :=
  let v := BitVec.ofNat Config.OP_WIDTH w
  let q := { s.req with op := some v }
  let q' :=
    if v = 0#3 then { q with hsum := some 0#8, dlen := some 0#8, inlen := some 0#16 }
    else if v = 1#3 then { q with inlen := some 0#16 }
    else if v = 2#3 then { q with rawlen := some 0#10, cur := some 0#10 }
    else if v = 3#3 then { q with addr := some 0#8, cmd := some 0#8, inlen := some 0#16 }
    else if v = 4#3 then { q with rawlen := some 0#10, maxlen := some 0#8 }
    else q
  { s with req := q', walk := none }

/-- `s` with the wire bytes of a symbol in `RAW` from cell 0 on and the receive side reading them there: a marker inside a
DECODE at START, a field inside a DESTUFF whose `CUR` is 0. -/
def State.withWireWord (s : State) (bs : List Byte) : State :=
  let q :=
    { s.req with
      rawlen := some (BitVec.ofNat Config.INDEX_WIDTH bs.length), rawBuf := Memory.writeAll 0 bs s.req.rawBuf }
  if tablePosition bs = .marker then
    openWalk (.start 0#10) { s with req := { q with op := some 4#3 } }
  else
    openWalk (.destuff 0#10) { s with req := { q with op := some 2#3, cur := some 0#10 } }

/-- `s` with the instruction of a table word where the next step reads it (log entry 10). -/
def State.withFetchWord (s : State) (nbits w : Nat) : State :=
  if isRequestWord nbits w then s.withRequestWord w else s.withWireWord (tableWireBytes nbits w)

end Sys2Proof.Machine
end

