-- ==== Sys2Proof/Machine/HostPort.lean ====
section
/-! DEFINITION. The host agent: register writes, register reads, `issue` and reset (R20, R21, R22, R43, R58, R61, R241), and
the requests of the spec's assembler notation (R84). All host actions form one total order (R61), here a list. -/

namespace Sys2Proof.Machine

/-- One action of the one host (R20, R63). A write carries a value of the register's own width (R22). -/
inductive HostAction where
  | writeOp (v : BitVec Config.OP_WIDTH)
  | writeAddr (v : Byte)
  | writeCmd (v : Byte)
  | writeHsum (v : Byte)
  | writeDlen (v : Byte)
  | writeInlen (v : BitVec Config.INLEN_WIDTH)
  | writeIn (i : Nat) (v : Byte)
  | writeRawlen (v : BitVec Config.INDEX_WIDTH)
  | writeRaw (i : Nat) (v : Byte)
  | writeCur (v : BitVec Config.INDEX_WIDTH)
  | writeMaxlen (v : BitVec Config.MAXLEN_WIDTH)
  /-- a write to a scalar result register (R43) -/
  | writeResult (r : ResName)
  /-- a write to `OUT` (R43), refused at every index; beyond 519 that is the model's choice (log entry 8) -/
  | writeOut (i : Nat)
  /-- a write to `RPAY` (R43), refused at every index; beyond 254 that is the model's choice (log entry 8) -/
  | writeRpay (i : Nat)
  | read (p : Place)
  | issue
  | reset
deriving DecidableEq, Repr

/-- What a register or cell holds, as an unsigned number (R7); `none` is ⊥. -/
def State.value (s : State) : Place → Option Nat
  | .req .op => s.req.op.map BitVec.toNat
  | .req .addr => s.req.addr.map BitVec.toNat
  | .req .cmd => s.req.cmd.map BitVec.toNat
  | .req .hsum => s.req.hsum.map BitVec.toNat
  | .req .dlen => s.req.dlen.map BitVec.toNat
  | .req .inlen => s.req.inlen.map BitVec.toNat
  | .req .rawlen => s.req.rawlen.map BitVec.toNat
  | .req .cur => s.req.cur.map BitVec.toNat
  | .req .maxlen => s.req.maxlen.map BitVec.toNat
  | .res .rstate => some s.res.rstate.toNat
  | .res .err => s.res.err.map BitVec.toNat
  | .res .rbyte => s.res.rbyte.map BitVec.toNat
  | .res .rnext => s.res.rnext.map BitVec.toNat
  | .res .outlen => s.res.outlen.map BitVec.toNat
  | .res .raddr => s.res.raddr.map BitVec.toNat
  | .res .rcmd => s.res.rcmd.map BitVec.toNat
  | .res .rstatus => s.res.rstatus.map BitVec.toNat
  | .res .rdlen => s.res.rdlen.map BitVec.toNat
  | .cell b i => ((s.buffer b).read i).map BitVec.toNat

/-- The fault of an access to a place that does not exist: a cell at or beyond its buffer's size (R50; log entry 8). Every
register exists. -/
def Place.absentFault : Place → Option Fault
  | .req _ => none
  | .res _ => none
  | .cell b i => if i < b.cap then none else some (.noCell b i)

/-- Whether the place exists (R50). -/
def Place.present (p : Place) : Bool := p.absentFault.isNone

/-- A host read: the value; at ⊥ the fault that R41 gives a host's read of a cell that nothing has written or that the last
operation did not write; at a cell that does not exist the fault of log entry 8. -/
def hostRead (p : Place) (s : State) : Except Fault Nat :=
  match p.absentFault, s.value p with
  | some f, _ => .error f
  | none, some v => .ok v
  | none, none => .error (.noValue p)

/-- A host write that sets the request registers to `q`. -/
def hostWrite (q : ReqRegs) (s : State) : Outcome := .next { s with req := q }

/-- A host write to cell `i` of `IN` (R22, R50). -/
def hostWriteIn (i : Nat) (v : Byte) (s : State) : Outcome :=
  if i < Config.IN_CAP then hostWrite { s.req with inBuf := s.req.inBuf.write i v } s
  else .fault (.noCell .inSpace i)

/-- A host write to cell `i` of `RAW` (R22, R50). -/
def hostWriteRaw (i : Nat) (v : Byte) (s : State) : Outcome :=
  if i < Config.RX_FRAME_CAP then hostWrite { s.req with rawBuf := s.req.rawBuf.write i v } s
  else .fault (.noCell .rawSpace i)

/-- A host read as an action: it changes nothing (R58). -/
def hostLook (p : Place) (s : State) : Outcome :=
  match hostRead p s with
  | .ok _ => .next s
  | .error f => .fault f

/-- One host action between operations (R21, R43, R241). A write to `OUT` or `RPAY` is refused whatever its index: R43 says so
of the cells that exist, and of an index beyond the buffer, where the spec is silent, it is the model's choice (log entry 8). -/
def actBetween (a : HostAction) (s : State) : Outcome :=
  match a with
  | .writeOp v => hostWrite { s.req with op := some v } s
  | .writeAddr v => hostWrite { s.req with addr := some v } s
  | .writeCmd v => hostWrite { s.req with cmd := some v } s
  | .writeHsum v => hostWrite { s.req with hsum := some v } s
  | .writeDlen v => hostWrite { s.req with dlen := some v } s
  | .writeInlen v => hostWrite { s.req with inlen := some v } s
  | .writeIn i v => hostWriteIn i v s
  | .writeRawlen v => hostWrite { s.req with rawlen := some v } s
  | .writeRaw i v => hostWriteRaw i v s
  | .writeCur v => hostWrite { s.req with cur := some v } s
  | .writeMaxlen v => hostWrite { s.req with maxlen := some v } s
  | .writeResult r => .refused (.resultRegister (.res r))
  | .writeOut i => .refused (.resultRegister (.cell .outSpace i))
  | .writeRpay i => .refused (.resultRegister (.cell .rpaySpace i))
  | .read p => hostLook p s
  | .issue => step s
  | .reset => .next State.reset

/-- One host action. None can fall inside an operation (R43, R241). -/
def act (a : HostAction) (s : State) : Outcome :=
  if s.walk = none then actBetween a s else .refused .insideOperation

/-- A run of host actions in their one order (R61), stopping at the first fault or refusal (R218). -/
def runActions : List HostAction → State → Outcome
  | [], s => .next s
  | a :: as, s =>
    match act a s with
    | .next t => runActions as t
    | .fault f => .fault f
    | .refused r => .refused r

/-- One request in the spec's assembler notation (R84). -/
inductive Request where
  | cksum (hsum dlen : Byte) (p : List Byte)
  | stuff (p : List Byte)
  | destuff (r : List Byte) (cur : BitVec Config.INDEX_WIDTH)
  | encode (addr cmd : Byte) (p : List Byte)
  /-- `ENCODE addr, cmd, len=N`: `INLEN` alone, `IN` not filled. -/
  | encodeLen (addr cmd : Byte) (n : BitVec Config.INLEN_WIDTH)
  | decode (r : List Byte) (maxlen : BitVec Config.MAXLEN_WIDTH)
deriving DecidableEq, Repr

/-- Writes that fill `IN` from cell `i` on. -/
def fillIn : Nat → List Byte → List HostAction
  | _, [] => []
  | i, b :: bs => .writeIn i b :: fillIn (i + 1) bs

/-- Writes that fill `RAW` from cell `i` on. -/
def fillRaw : Nat → List Byte → List HostAction
  | _, [] => []
  | i, b :: bs => .writeRaw i b :: fillRaw (i + 1) bs

/-- The register writes a request stands for, then `issue` (R21, R80, R84). -/
def Request.actions : Request → List HostAction
  | .cksum h d p =>
    [.writeOp 0#3, .writeHsum h, .writeDlen d, .writeInlen (BitVec.ofNat Config.INLEN_WIDTH p.length)] ++
      fillIn 0 p ++ [.issue]
  | .stuff p =>
    [.writeOp 1#3, .writeInlen (BitVec.ofNat Config.INLEN_WIDTH p.length)] ++ fillIn 0 p ++ [.issue]
  | .destuff r cur =>
    [.writeOp 2#3, .writeRawlen (BitVec.ofNat Config.INDEX_WIDTH r.length), .writeCur cur] ++ fillRaw 0 r ++ [.issue]
  | .encode a c p =>
    [.writeOp 3#3, .writeAddr a, .writeCmd c, .writeInlen (BitVec.ofNat Config.INLEN_WIDTH p.length)] ++
      fillIn 0 p ++ [.issue]
  | .encodeLen a c n => [.writeOp 3#3, .writeAddr a, .writeCmd c, .writeInlen n, .issue]
  | .decode r m =>
    [.writeOp 4#3, .writeRawlen (BitVec.ofNat Config.INDEX_WIDTH r.length), .writeMaxlen m] ++
      fillRaw 0 r ++ [.issue]

end Sys2Proof.Machine
end

