-- ==== Sys2Proof/Safety.lean ====
section
/-! DEFINITION. What claims are stated in: a safe step, what the request registers present to an operation, how an
operation ends, the wire form of logical bytes, and the invariant of the machine. -/

namespace Sys2Proof.Machine

/-- A safe step: neither a fault nor a refusal (R218). -/
def State.Safe (s : State) : Prop := ∃ t, step s = .next t

/-- `INLEN` and `IN` present the logical bytes `p` (R22, R24); cells at or beyond `INLEN` may hold anything or ⊥ (R42). -/
def State.Input (s : State) (p : List Byte) : Prop :=
  p.length ≤ 255 ∧ s.req.inlen = some (BitVec.ofNat 16 p.length) ∧
    ∀ k, k < p.length → s.req.inBuf.read k = p[k]?

/-- `RAWLEN` is `n` and `RAW` begins with the bytes `f`; the cells after them may hold anything or ⊥ (R22, R24, R42). -/
def State.Raw (s : State) (f : List Byte) (n : Nat) : Prop :=
  f.length ≤ n ∧ n ≤ 522 ∧ s.req.rawlen = some (BitVec.ofNat 10 n) ∧
    ∀ k, k < f.length → s.req.rawBuf.read k = f[k]?

/-- The buffer holds exactly the bytes `o` from cell 0 on, and ⊥ in every other cell (R40, R42). -/
def Memory.Holds (m : Memory) (o : List Byte) : Prop := ∀ k, m.read k = o[k]?

/-- The outcome is a next state with result registers `r`, every request register as before (R22, R211) and no operation
left in progress (R21). -/
def EndsWith (o : Outcome) (s : State) (r : ResRegs) : Prop :=
  ∃ t, o = .next t ∧ t.req = s.req ∧ t.walk = none ∧ t.res = r

/-- The result registers after `raise` of the error with this code: everything else ⊥ (R40, R211). -/
def errorResult (code : BitVec 4) : ResRegs :=
  { rstate := 2#2, err := some code, rbyte := none, rnext := none, outlen := none, outBuf := [], raddr := none,
    rcmd := none, rstatus := none, rdlen := none, rpay := [] }

/-- The outcome reports the error with this code and nothing else (R40, R211, R213). -/
def EndsInError (o : Outcome) (s : State) (code : BitVec 4) : Prop := EndsWith o s (errorResult code)

/-- The outcome is success with the bytes `o` in `OUT`, `OUTLEN` = |o|, and every other result register ⊥ (R131, R151). -/
def EndsWithOut (out : Outcome) (s : State) (o : List Byte) : Prop :=
  ∃ m, Memory.Holds m o ∧
    EndsWith out s
      { rstate := 1#2, err := none, rbyte := none, rnext := none, outlen := some (BitVec.ofNat 10 o.length), outBuf := m,
        raddr := none, rcmd := none, rstatus := none, rdlen := none, rpay := [] }

/-- The outcome is success with this header and payload in the DECODE results and every other result register ⊥ (R172). -/
def EndsWithFrame (out : Outcome) (s : State) (a c st d : Byte) (p : List Byte) : Prop :=
  ∃ m, Memory.Holds m p ∧
    EndsWith out s
      { rstate := 1#2, err := none, rbyte := none, rnext := none, outlen := none, outBuf := [], raddr := some a,
        rcmd := some c, rstatus := some st, rdlen := some d, rpay := m }

/-- The bytes `w` are one wire field of the logical byte `b`: `b` itself if it is not 0x7D, or any escape pair `7D x` with
`x XOR 0x20 = b`, canonical or not (R72, R73, R125). -/
def IsField (w : List Byte) (b : Byte) : Prop :=
  (b ≠ 0x7D#8 ∧ w = [b]) ∨ ∃ x : Byte, w = [0x7D#8, x] ∧ b = x ^^^ 0x20#8

/-- The bytes `w` are wire fields of the logical bytes `bs`, one after the other. -/
def FieldsOf : List Byte → List Byte → Prop
  | w, [] => w = []
  | w, b :: bs => ∃ u v, w = u ++ v ∧ IsField u b ∧ FieldsOf v bs

/-- The transmit frame of R75. -/
def transmitFrame (a c : Byte) (p : List Byte) : List Byte :=
  [0x7E#8] ++ stuffByte a ++ stuffByte c ++ stuffByte (BitVec.ofNat 8 p.length) ++ stuff p ++
    stuffByte (cksum (a + c) (BitVec.ofNat 8 p.length) p) ++ [0x7E#8]

/-- The checksum field of a receive frame (R76). -/
def receiveChecksum (a c st : Byte) (p : List Byte) : Byte :=
  cksum (a + c + st) (BitVec.ofNat 8 p.length) p

/-- A receive frame up to its checksum field (R76). -/
def receiveBody (a c st : Byte) (p : List Byte) : List Byte :=
  [0x7E#8] ++ stuff ([a, c, st, BitVec.ofNat 8 p.length] ++ p)

/-- The receive frame of R76 and R187. -/
def receiveFrame (a c st : Byte) (p : List Byte) : List Byte :=
  receiveBody a c st p ++ stuffByte (receiveChecksum a c st p) ++ [0x7E#8]

/-- How many bytes of a sequence are reserved (R123). -/
def reservedCount (p : List Byte) : Nat := p.countP isReserved

/-- A result buffer with its length register: ⊥ with no cell, or a length within the capacity with exactly the cells
below it (R40, R42, R59). -/
def lengthMatches (cap : Nat) (len : Option Nat) (m : Memory) : Prop :=
  match len with
  | none => m = []
  | some n => n ≤ cap ∧ m.map Prod.fst = List.range n

/-- `RSTATE` is never 3 (R23), `ERR` holds only 1 to 7 (R210), and `OUT` and `RPAY` have exactly the cells their length
registers say (R42). -/
def ResRegs.Inv (r : ResRegs) : Prop :=
  r.rstate ≠ 3#2 ∧
  (∀ c, r.err = some c → 1 ≤ c.toNat ∧ c.toNat ≤ 7) ∧
  lengthMatches 520 (r.outlen.map BitVec.toNat) r.outBuf ∧
  lengthMatches 255 (r.rdlen.map BitVec.toNat) r.rpay

/-- What the phases of an operation in progress have in hand: fewer than D bytes in PAYLOAD, exactly D after it (R176,
R177), and at most three header bytes in HEADER (R175). -/
def Walk.Inv : Walk → Prop
  | .destuff _ => True
  | .start _ => True
  | .header _ got => got.length ≤ 3
  | .payload _ h pay => pay.length < h.dlen.toNat
  | .checksum _ h pay => pay.length = h.dlen.toNat
  | .stop _ h pay => pay.length = h.dlen.toNat

/-- The invariant: buffers in canonical form within their capacities (R50, R59), legal status values, results that belong
to the status (R40), and a legal phase. -/
def State.Inv (s : State) : Prop :=
  s.req.inBuf.wf 255 = true ∧ s.req.rawBuf.wf 522 = true ∧ s.res.Inv ∧
  (s.walk = none → (s.res.rstate = 2#2 ↔ s.res.err ≠ none)) ∧
  (s.res.rstate = 0#2 → s.res = ResRegs.blank) ∧
  (∀ w, s.walk = some w → w.Inv ∧ s.res = { ResRegs.blank with rstate := s.res.rstate })

/-- The operands of an operation (R82): two states that agree on them present the same request to it. -/
def SameOperands (i : Instr) (s s' : State) : Prop :=
  let sameIn := s.req.inlen = s'.req.inlen ∧
    ∀ n k, s.req.inlen = some n → k < n.toNat → s.req.inBuf.read k = s'.req.inBuf.read k
  let sameRaw := s.req.rawlen = s'.req.rawlen ∧
    ∀ n k, s.req.rawlen = some n → k < n.toNat → s.req.rawBuf.read k = s'.req.rawBuf.read k
  match i with
  | .cksum => sameIn ∧ s.req.hsum = s'.req.hsum ∧ s.req.dlen = s'.req.dlen
  | .stuff => sameIn
  | .destuff => sameRaw ∧ s.req.cur = s'.req.cur
  | .encode => sameIn ∧ s.req.addr = s'.req.addr ∧ s.req.cmd = s'.req.cmd
  | .decode => sameRaw ∧ s.req.maxlen = s'.req.maxlen
  | .esc11 => False
  | .esc13 => False
  | .esc7D => False
  | .esc7E => False
  | .escNoncanonical _ => False
  | .flag => False
  | .literal _ => False

/-- Two outcomes report the same: equal result registers, or the same fault, or the same refusal. -/
def SameReport : Outcome → Outcome → Prop
  | .next t, .next t' => t.res = t'.res
  | .fault f, .fault f' => f = f'
  | .refused r, .refused r' => r = r'
  | _, _ => False

/-- The place a host write sets and the value it gives it (R22). -/
def HostAction.target : HostAction → Option (Place × Nat)
  | .writeOp v => some (.req .op, v.toNat)
  | .writeAddr v => some (.req .addr, v.toNat)
  | .writeCmd v => some (.req .cmd, v.toNat)
  | .writeHsum v => some (.req .hsum, v.toNat)
  | .writeDlen v => some (.req .dlen, v.toNat)
  | .writeInlen v => some (.req .inlen, v.toNat)
  | .writeIn i v => some (.cell .inSpace i, v.toNat)
  | .writeRawlen v => some (.req .rawlen, v.toNat)
  | .writeRaw i v => some (.cell .rawSpace i, v.toNat)
  | .writeCur v => some (.req .cur, v.toNat)
  | .writeMaxlen v => some (.req .maxlen, v.toNat)
  | .writeResult _ => none
  | .writeOut _ => none
  | .writeRpay _ => none
  | .read _ => none
  | .issue => none
  | .reset => none

end Sys2Proof.Machine
end

