-- ==== Sys2Proof/Certificates/Slice0/Obligations.lean ====
section
/-! DEFINITION. The statements for the provers. Each docstring names the rules of spec/ it formalises. -/

open Sys2Proof Sys2Proof.Machine

/-! ## Reset and the invariant -/

/-- R240: after reset every request register, every cell of `IN` and `RAW`, every result register but `RSTATE` and
every cell of `OUT` and `RPAY` is ⊥, `RSTATE` is 0 and no operation is in progress; and the host's reset action, between
operations (R241), leaves exactly that state. -/
def Obligations.ResetLeavesNoValueButIdle : Prop :=
  (∀ r : ReqName, State.reset.value (.req r) = none) ∧
  (∀ r : ResName, r ≠ .rstate → State.reset.value (.res r) = none) ∧
  (∀ (b : Space) (i : Nat), State.reset.value (.cell b i) = none) ∧
  State.reset.value (.res .rstate) = some 0 ∧
  State.reset.walk = none ∧
  (∀ s : State, s.walk = none → act .reset s = .next State.reset)

/-- The invariant holds after reset. -/
def Obligations.ResetMeetsInvariant : Prop := State.reset.Inv

/-- Every step keeps the invariant: canonical buffers within capacity, legal status, results that belong to the
status, lengths that match the cells, a legal phase (R23, R40, R42, R50, R59, R176, R210). -/
def Obligations.StepKeepsInvariant : Prop :=
  ∀ s t : State, s.Inv → step s = .next t → t.Inv

/-- Every host action keeps the invariant. -/
def Obligations.HostActionKeepsInvariant : Prop :=
  ∀ (a : HostAction) (s t : State), s.Inv → act a s = .next t → t.Inv

/-- R21, R57: an issue between operations leaves no operation in progress, and neither does any host action. -/
def Obligations.NoOperationIsLeftInProgress : Prop :=
  ∀ (a : HostAction) (s t : State), act a s = .next t → t.walk = none

/-! ## Buffers -/

/-- Reading the cell just written gives the byte; every other cell reads as before; the canonical form is kept. -/
def Obligations.CellWriteThenRead : Prop :=
  ∀ (m : Memory) (i : Nat) (v : Byte),
    (m.write i v).read i = some v ∧
    (∀ j, j ≠ i → (m.write i v).read j = m.read j) ∧
    (∀ cap, i < cap → m.wf cap = true → (m.write i v).wf cap = true)

/-! ## Decoding, encoding and the step -/

/-- R80, R81: `OP` 0 to 4 select the five operations, and 5, 6, 7 and ⊥ are refused. -/
def Obligations.OpSelectsTheOperation : Prop :=
  ∀ s : State, s.walk = none →
    (s.req.op = some 0#3 → step s = exec .cksum s) ∧
    (s.req.op = some 1#3 → step s = exec .stuff s) ∧
    (s.req.op = some 2#3 → step s = exec .destuff s) ∧
    (s.req.op = some 3#3 → step s = exec .encode s) ∧
    (s.req.op = some 4#3 → step s = exec .decode s) ∧
    (∀ v : BitVec 3, 5 ≤ v.toNat → s.req.op = some v → step s = .refused (.reservedOp v)) ∧
    (s.req.op = none → step s = .refused .noOperation)

/-- A step runs the decoded instruction: between operations the one in `OP`; inside an operation (the model's own
refinement, log entry 2), when the bytes of `RAW` at the cursor and below `RAWLEN` decode to `i` at the phase's
position, `i`. -/
def Obligations.StepRunsTheDecodedInstruction : Prop :=
  (∀ (s : State) (v : BitVec 3) (i : Instr),
    s.walk = none → s.req.op = some v → decodeOp v = .ok i → step s = exec i s) ∧
  (∀ (s : State) (w : Walk) (n : BitVec 10) (bs : List Byte) (i : Instr),
    s.walk = some w → s.req.rawlen = some n → n.toNat ≤ 522 → w.cursor.toNat + bs.length ≤ n.toNat →
    (∀ k, k < bs.length → s.req.rawBuf.read (w.cursor.toNat + k) = bs[k]?) →
    decodeWire w.position bs = .ok (i, []) → step s = exec i s)

/-- A few words written out from R71, R73, R80 and the table: each decodes to its instruction. How an 8-bit table word
is shared between the requests and the wire is the model's choice (log entry 9). -/
def Obligations.SampleWordsDecode : Prop :=
  decodeTableWord 3 0b000 = some .cksum ∧ decodeTableWord 3 0b100 = some .decode ∧ decodeTableWord 3 0b111 = none ∧
  decodeTableWord 16 0b0111110100110001 = some .esc11 ∧ decodeTableWord 16 0b0111110101011110 = some .esc7E ∧
  decodeTableWord 16 0b0111110100000000 = some (.escNoncanonical 0x00#8) ∧
  decodeTableWord 8 0b01111110 = some .flag ∧ decodeTableWord 8 0b11010001 = some (.literal 0xD1#8)

/-- Decode and encode agree on every well-formed instruction, with every operand and any bytes after it. -/
def Obligations.DecodeOfEncodeIsTheInstruction : Prop :=
  ∀ i : Instr, i.wf = true →
    match encode i with
    | .op v => decodeOp v = .ok i
    | .wire bs => ∀ rest, decodeWire i.position (bs ++ rest) = .ok (i, rest)

/-- The other direction: a decoded word is the encoding of the instruction it decoded to, which is well formed; so no
two instructions share a word. -/
def Obligations.EncodeOfDecodeIsTheWord : Prop :=
  (∀ (v : BitVec 3) (i : Instr), decodeOp v = .ok i → i.wf = true ∧ encode i = .op v) ∧
  (∀ (pos : Position) (bs rest : List Byte) (i : Instr), decodeWire pos bs = .ok (i, rest) →
    i.wf = true ∧ i.position = pos ∧ ∃ u, encode i = .wire u ∧ bs = u ++ rest)

/-- R72, R85: at a field, a first byte 0x7D makes a symbol of 2 bytes and any other byte one of 1 byte; at a marker
position 0x7E is FLAG and every other byte is none. -/
def Obligations.SymbolLengthByFirstByte : Prop :=
  (∀ x rest, ∃ i, decodeWire .field (0x7D#8 :: x :: rest) = .ok (i, rest)) ∧
  decodeWire .field [0x7D#8] = .error .truncatedEscape ∧
  (∀ b rest, b ≠ 0x7D#8 → decodeWire .field (b :: rest) = .ok (.literal b, rest)) ∧
  (∀ rest, decodeWire .marker (0x7E#8 :: rest) = .ok (.flag, rest)) ∧
  (∀ b rest, b ≠ 0x7E#8 → decodeWire .marker (b :: rest) = .error (.notAMarker b))

/-! ## Frames of all instructions -/

/-- R35: what an issue reports is a function of the request registers alone. -/
def Obligations.ReportDependsOnRequestOnly : Prop :=
  ∀ (s s' : State), s.walk = none → s'.walk = none → s.req = s'.req → SameReport (step s) (step s')

/-- R42, R82: an operation reads no register but its own operands, and no cell at or beyond its length. -/
def Obligations.OperationReadsOnlyItsOperands : Prop :=
  ∀ (i : Instr) (s s' : State), SameOperands i s s' → SameReport (exec i s) (exec i s')

/-- R40, R213: an operation that ends in an error leaves `ERR` and `RSTATE` = 2 alone; one that succeeds leaves
`RSTATE` = 1 and `ERR` ⊥; and which result registers each operation can have written. -/
def Obligations.OnlyNamedResultsAreWritten : Prop :=
  ∀ (i : Instr) (s t : State), i.isRequest = true → exec i s = .next t →
    (t.res.rstate = 2#2 ∧ t.req = s.req ∧ ∃ c, t.res = errorResult c) ∨
    (t.res.rstate = 1#2 ∧ t.res.err = none ∧
      (i ≠ .cksum → i ≠ .destuff → t.res.rbyte = none) ∧
      (i ≠ .destuff → t.res.rnext = none) ∧
      (i ≠ .stuff → i ≠ .encode → t.res.outlen = none ∧ ∀ k, t.res.outBuf.read k = none) ∧
      (i ≠ .decode → t.res.raddr = none ∧ t.res.rcmd = none ∧ t.res.rstatus = none ∧ t.res.rdlen = none ∧
        ∀ k, t.res.rpay.read k = none))

/-- R210: which error codes each operation can report. -/
def Obligations.ErrorCodesOfEachOperation : Prop :=
  ∀ (s t : State) (c : BitVec 4), t.res.err = some c →
    (exec .cksum s ≠ .next t) ∧
    (exec .stuff s ≠ .next t) ∧
    (exec .encode s = .next t → c = 1#4) ∧
    (exec .destuff s = .next t → c = 5#4) ∧
    (exec .decode s = .next t → 2 ≤ c.toNat ∧ c.toNat ≤ 7)

/-! ## CKSUM -/

/-- R101, R102: CKSUM writes `NOT8` of the sum and nothing else; with `INLEN` > 255 its issue is refused. -/
def Obligations.CksumWritesTheChecksum : Prop :=
  (∀ (s : State) (p : List Byte) (hs dl : Byte), s.Input p → s.req.hsum = some hs → s.req.dlen = some dl →
    EndsWith (exec .cksum s) s
      { rstate := 1#2, err := none,
        rbyte := some (BitVec.ofNat 8 (255 - (hs.toNat + dl.toNat + (p.map BitVec.toNat).sum) % 256)), rnext := none,
        outlen := none, outBuf := [], raddr := none, rcmd := none, rstatus := none, rdlen := none, rpay := [] }) ∧
  (∀ (s : State) (n : BitVec 16), s.req.inlen = some n → 255 < n.toNat → exec .cksum s = .refused .inputTooLong)

/-- R103: the payload may be summed in any order, the parts may be reduced first, and `cksum((a + c) mod 256, dl, p)`
is `NOT8((a + c + dl + Σp) mod 256)`. -/
def Obligations.CksumIgnoresOrderAndPrereduction : Prop :=
  (∀ (hs dl : Byte) (p q : List Byte), p.Perm q → cksum hs dl p = cksum hs dl q) ∧
  (∀ (hs dl : Byte) (p : List Byte), cksum hs dl p = p.foldl (fun acc b => acc - b) (255#8 - (hs + dl))) ∧
  (∀ (a c dl : Byte) (p : List Byte),
    cksum (a + c) dl p = not8 (BitVec.ofNat 8 (a.toNat + c.toNat + dl.toNat + (p.map BitVec.toNat).sum)))

/-- R105: header sum, length, payload and checksum add up to 0xFF mod 256. -/
def Obligations.CksumSelfCheck : Prop :=
  ∀ (hs dl : Byte) (p : List Byte),
    (hs.toNat + dl.toNat + (p.map BitVec.toNat).sum + (cksum hs dl p).toNat) % 256 = 0xFF

/-- R106: changing one logical input byte by δ changes the checksum by −δ, so a nonzero change is always seen; two
changes that cancel are not. -/
def Obligations.CksumSensitivity : Prop :=
  (∀ (hs dl d : Byte) (p : List Byte), cksum (hs + d) dl p = cksum hs dl p - d) ∧
  (∀ (hs dl d : Byte) (p : List Byte), cksum hs (dl + d) p = cksum hs dl p - d) ∧
  (∀ (hs dl d b : Byte) (u v : List Byte), cksum hs dl (u ++ (b + d) :: v) = cksum hs dl (u ++ b :: v) - d) ∧
  (∀ (x d : Byte), d ≠ 0#8 → x - d ≠ x) ∧
  (∀ (hs dl d b c : Byte) (u v w : List Byte),
    cksum hs dl (u ++ (b + d) :: v ++ (c - d) :: w) = cksum hs dl (u ++ b :: v ++ c :: w))

/-! ## STUFF -/

/-- R71, R120: exactly 0x11, 0x13, 0x7D and 0x7E are reserved; their stuffed fields are the four canonical pairs, any
other byte's is itself, and each is the encoding of the wire symbol the table names. -/
def Obligations.StuffedFieldOfEachByte : Prop :=
  stuffByte 0x11#8 = [0x7D#8, 0x31#8] ∧ stuffByte 0x13#8 = [0x7D#8, 0x33#8] ∧
  stuffByte 0x7D#8 = [0x7D#8, 0x5D#8] ∧ stuffByte 0x7E#8 = [0x7D#8, 0x5E#8] ∧
  (∀ b : Byte, isReserved b = true ↔ b = 0x11#8 ∨ b = 0x13#8 ∨ b = 0x7D#8 ∨ b = 0x7E#8) ∧
  (∀ b : Byte, isReserved b = false → stuffByte b = [b]) ∧
  (∀ b : Byte, encode (symbolOf b) = .wire (stuffByte b))

/-- R121, R122, R131: STUFF writes the stuffed bytes in order and their number; with `INLEN` > 255 its issue is
refused. -/
def Obligations.StuffWritesTheStuffedBytes : Prop :=
  (∀ (s : State) (p : List Byte), s.Input p →
    EndsWithOut (exec .stuff s) s (p.flatMap (fun b =>
      if b = 0x11#8 ∨ b = 0x13#8 ∨ b = 0x7D#8 ∨ b = 0x7E#8 then [0x7D#8, b ^^^ 0x20#8] else [b]))) ∧
  (∀ (s : State) (n : BitVec 16), s.req.inlen = some n → 255 < n.toNat → exec .stuff s = .refused .inputTooLong)

/-- R123: `|stuff(s)|` is |s| plus the number of reserved bytes, at least |s|, and equal exactly when none is
reserved. -/
def Obligations.StuffedLength : Prop :=
  ∀ p : List Byte,
    (stuff p).length = p.length + reservedCount p ∧ p.length ≤ (stuff p).length ∧
    ((stuff p).length = p.length ↔ ∀ b ∈ p, isReserved b = false)

/-- R132: STUFF writes at most 510 cells of `OUT`. -/
def Obligations.StuffOutputFits : Prop :=
  ∀ (s t : State), exec .stuff s = .next t →
    (∃ n : BitVec 10, t.res.outlen = some n ∧ n.toNat ≤ 510) ∧ ∀ k, 510 ≤ k → t.res.outBuf.read k = none

/-- R130: a stuffed stream holds no 0x7E, 0x11 or 0x13, and after each 0x7D comes one of 0x31, 0x33, 0x5D, 0x5E. -/
def Obligations.StuffedStreamHoldsNoMarker : Prop :=
  ∀ (p : List Byte) (k : Nat),
    (stuff p)[k]? ≠ some 0x7E#8 ∧ (stuff p)[k]? ≠ some 0x11#8 ∧ (stuff p)[k]? ≠ some 0x13#8 ∧
    ((stuff p)[k]? = some 0x7D#8 → ∃ x ∈ canonicalSeconds, (stuff p)[k + 1]? = some x)

/-- R129: a stuffed stream splits into stuffed fields in exactly one way, a field's bounds being fixed by its first
byte, and concatenation keeps the boundaries. -/
def Obligations.StuffedStreamParsesUniquely : Prop :=
  (∀ p q : List Byte, stuff (p ++ q) = stuff p ++ stuff q) ∧
  (∀ p q : List Byte, FieldsOf (stuff p) q ↔ q = p) ∧
  (∀ (u v u' v' : List Byte) (b b' : Byte), IsField u b → IsField u' b' → u ++ v = u' ++ v' → u = u' ∧ v = v' ∧ b = b')

/-- R128: destuffing a stuffed stream field by field gives the bytes back and ends exactly at its end. -/
def Obligations.DestuffOfStuffRoundTrip : Prop :=
  ∀ p : List Byte, ∃ at' : Nat → Nat,
    at' 0 = 0 ∧ at' p.length = (stuff p).length ∧
    ∀ k b, p[k]? = some b →
      destuff (Memory.ofBytes (stuff p)) (stuff p).length (at' k) = .ok (b, at' (k + 1))

/-! ## DESTUFF -/

/-- R126: DESTUFF reads the literal or the escape at `CUR`, canonical or not, and only that field's own cells need a
value; a start index at or beyond `RAWLEN`, and 0x7D in the last byte, are TruncatedFrame; `RAWLEN` > 522 is refused.
-/
def Obligations.DestuffReadsOneField : Prop :=
  (∀ (s : State) (n : Nat) (cur : BitVec 10) (u : List Byte) (b : Byte),
    n ≤ 522 → s.req.rawlen = some (BitVec.ofNat 10 n) → s.req.cur = some cur → cur.toNat + u.length ≤ n →
    (∀ k, k < u.length → s.req.rawBuf.read (cur.toNat + k) = u[k]?) → IsField u b →
    EndsWith (exec .destuff s) s
      { rstate := 1#2, err := none, rbyte := some b, rnext := some (BitVec.ofNat 10 (cur.toNat + u.length)), outlen :=
        none,
        outBuf := [], raddr := none, rcmd := none, rstatus := none, rdlen := none, rpay := [] }) ∧
  (∀ (s : State) (n : Nat) (cur : BitVec 10),
    n ≤ 522 → s.req.rawlen = some (BitVec.ofNat 10 n) → s.req.cur = some cur →
    (n ≤ cur.toNat ∨ (cur.toNat + 1 = n ∧ s.req.rawBuf.read cur.toNat = some 0x7D#8)) →
    EndsInError (exec .destuff s) s 5#4) ∧
  (∀ (s : State) (n : BitVec 10), s.req.rawlen = some n → 522 < n.toNat → exec .destuff s = .refused .rawTooLong)

/-- R124: the four canonical pairs, and the XOR rule for every pair. -/
def Obligations.CanonicalPairsDestuff : Prop :=
  destuff (Memory.ofBytes [0x7D#8, 0x31#8]) 2 0 = .ok (0x11#8, 2) ∧
  destuff (Memory.ofBytes [0x7D#8, 0x33#8]) 2 0 = .ok (0x13#8, 2) ∧
  destuff (Memory.ofBytes [0x7D#8, 0x5D#8]) 2 0 = .ok (0x7D#8, 2) ∧
  destuff (Memory.ofBytes [0x7D#8, 0x5E#8]) 2 0 = .ok (0x7E#8, 2) ∧
  ∀ x : Byte, destuff (Memory.ofBytes [0x7D#8, x]) 2 0 = .ok (x ^^^ 0x20#8, 2)

/-! ## ENCODE -/

/-- R75, R151: ENCODE writes the transmit frame, and its one error is PayloadTooLarge, exactly when `INLEN` > 255. -/
def Obligations.EncodeWritesTheTransmitFrame : Prop :=
  (∀ (s : State) (a c : Byte) (p : List Byte), s.Input p → s.req.addr = some a → s.req.cmd = some c →
    EndsWithOut (exec .encode s) s (transmitFrame a c p)) ∧
  (∀ (s t : State), exec .encode s = .next t →
    (t.res = errorResult 1#4 ↔ ∃ n, s.req.inlen = some n ∧ 255 < n.toNat) ∧
    (t.res = errorResult 1#4 ∨ t.res.rstate = 1#2)) ∧
  (∀ (s : State) (n : BitVec 16), s.req.inlen = some n → 255 < n.toNat → EndsInError (exec .encode s) s 1#4)

/-- R152: `INLEN` > 255 is PayloadTooLarge, whatever `ADDR`, `CMD` and `IN` hold, ⊥ included. -/
def Obligations.EncodePayloadTooLarge : Prop :=
  ∀ (s : State) (n : BitVec 16), s.req.inlen = some n → 255 < n.toNat → EndsInError (exec .encode s) s 1#4

/-- R155: on success `OUT[0]` and `OUT[OUTLEN-1]` are 0x7E and no other cell is. -/
def Obligations.EncodeMarkersStandOnlyAtTheEnds : Prop :=
  ∀ (s t : State), exec .encode s = .next t → t.res.rstate = 1#2 →
    ∃ n : BitVec 10, t.res.outlen = some n ∧
      ∀ k, t.res.outBuf.read k = some 0x7E#8 ↔ k = 0 ∨ k + 1 = n.toNat

/-- R157: on success `OUTLEN` is 6 + L + r, r the reserved values among `ADDR`, `CMD`, L, the payload and the
checksum, and lies between 6 and 519; no frame is too long, so an error means `INLEN` > 255. -/
def Obligations.EncodedFrameSize : Prop :=
  (∀ (s : State) (a c : Byte) (p : List Byte), s.Input p → s.req.addr = some a → s.req.cmd = some c →
    ∃ (t : State) (n : BitVec 10), exec .encode s = .next t ∧ t.res.outlen = some n ∧
      n.toNat = 6 + p.length +
        reservedCount ([a, c, BitVec.ofNat 8 p.length] ++ p ++ [cksum (a + c) (BitVec.ofNat 8 p.length) p]) ∧
      6 ≤ n.toNat ∧ n.toNat ≤ 519) ∧
  (∀ s t : State, exec .encode s = .next t → t.res.err ≠ none → ∃ n, s.req.inlen = some n ∧ 255 < n.toNat)

/-- A receive frame has 7 + D + r bytes, between 7 and 521 (the receive half of R77). -/
def Obligations.ReceiveFrameSize : Prop :=
  ∀ (a c st : Byte) (p : List Byte), p.length ≤ 255 →
    (receiveFrame a c st p).length = 7 + p.length +
      reservedCount ([a, c, st, BitVec.ofNat 8 p.length] ++ p ++ [receiveChecksum a c st p]) ∧
    7 ≤ (receiveFrame a c st p).length ∧ (receiveFrame a c st p).length ≤ 521

/-! ## DECODE -/

/-- R173: `RAWLEN` < 7 is FrameTooShort, whatever `RAW` holds, ⊥ included. -/
def Obligations.DecodeFrameTooShort : Prop :=
  ∀ (s : State) (n : Nat) (m : Byte), n < 7 → s.req.rawlen = some (BitVec.ofNat 10 n) → s.req.maxlen = some m →
    EndsInError (exec .decode s) s 2#4

/-- R174: a first byte other than 0x7E is MissingStartMarker, whatever follows. -/
def Obligations.DecodeMissingStartMarker : Prop :=
  ∀ (s : State) (n : Nat) (m b : Byte), s.Raw [b] n → 7 ≤ n → b ≠ 0x7E#8 → s.req.maxlen = some m →
    EndsInError (exec .decode s) s 3#4

/-- A field that is missing, or is a lone 0x7D at the end of `RAW`, is TruncatedFrame in HEADER and in CHECKSUM; in
PAYLOAD only the lone 0x7D is (R175, R176, R179). That the lone 0x7D in PAYLOAD is TruncatedFrame also when D > `MAXLEN`,
where R177 says "D > `MAXLEN` always raises `IncompleteResponse`", is the model's reading of R171 and R190 (log entry 7). -/
def Obligations.DecodeTruncatedFrame : Prop :=
  (∀ (s : State) (m : Byte) (w bs tail : List Byte), FieldsOf w bs → bs.length < 4 → (tail = [] ∨ tail = [0x7D#8]) →
    7 ≤ (0x7E#8 :: w ++ tail).length → s.Raw (0x7E#8 :: w ++ tail) (0x7E#8 :: w ++ tail).length → s.req.maxlen = some m →
    EndsInError (exec .decode s) s 5#4) ∧
  (∀ (s : State) (m a c st d : Byte) (w p : List Byte), FieldsOf w ([a, c, st, d] ++ p) → p.length < d.toNat →
    p.length < m.toNat → 7 ≤ w.length + 2 → s.Raw (0x7E#8 :: w ++ [0x7D#8]) (w.length + 2) → s.req.maxlen = some m →
    EndsInError (exec .decode s) s 5#4) ∧
  (∀ (s : State) (m a c st d : Byte) (w p tail : List Byte), FieldsOf w ([a, c, st, d] ++ p) → p.length = d.toNat →
    p.length ≤ m.toNat → (tail = [] ∨ tail = [0x7D#8]) → 7 ≤ (0x7E#8 :: w ++ tail).length →
    s.Raw (0x7E#8 :: w ++ tail) (0x7E#8 :: w ++ tail).length → s.req.maxlen = some m →
    EndsInError (exec .decode s) s 5#4)

/-- R176, R177: fewer than D bytes obtained, because `MAXLEN` is reached (whatever follows) or because `RAW` ends, is
IncompleteResponse. -/
def Obligations.DecodeIncompleteResponse : Prop :=
  ∀ (s : State) (n : Nat) (m a c st d : Byte) (w p : List Byte), FieldsOf w ([a, c, st, d] ++ p) → p.length < d.toNat →
    7 ≤ n → s.Raw (0x7E#8 :: w) n → s.req.maxlen = some m →
    (p.length = m.toNat ∨ (p.length ≤ m.toNat ∧ n = w.length + 1)) →
    EndsInError (exec .decode s) s 7#4

/-- R179, R180, R190: a checksum field other than the computed one (status included) is ChecksumMismatch, whatever
follows it, a missing stop marker included. -/
def Obligations.DecodeChecksumMismatch : Prop :=
  ∀ (s : State) (n : Nat) (m a c st d crc : Byte) (w p : List Byte), FieldsOf w ([a, c, st, d] ++ p ++ [crc]) →
    p.length = d.toNat → p.length ≤ m.toNat → crc ≠ cksum (a + c + st) d p → 7 ≤ n → s.Raw (0x7E#8 :: w) n →
    s.req.maxlen = some m → EndsInError (exec .decode s) s 6#4

/-- R181: no byte after the checksum, or a byte other than 0x7E, is MissingStopMarker. -/
def Obligations.DecodeMissingStopMarker : Prop :=
  ∀ (s : State) (n : Nat) (m a c st d : Byte) (w p tail : List Byte),
    FieldsOf w ([a, c, st, d] ++ p ++ [cksum (a + c + st) d p]) → p.length = d.toNat → p.length ≤ m.toNat →
    ((tail = [] ∧ n = w.length + 1) ∨ ∃ b, b ≠ 0x7E#8 ∧ tail = [b]) → 7 ≤ n → s.Raw (0x7E#8 :: w ++ tail) n →
    s.req.maxlen = some m → EndsInError (exec .decode s) s 4#4

/-- R172, R178, R182, R184, R186: a frame of wire fields, canonical or not, with the right checksum and a stop marker
is decoded, for every address, command and status, whatever stands after the stop marker, ⊥ included. -/
def Obligations.DecodeAcceptsEveryGoodFrame : Prop :=
  ∀ (s : State) (n : Nat) (m a c st d : Byte) (w p : List Byte),
    FieldsOf w ([a, c, st, d] ++ p ++ [cksum (a + c + st) d p]) → p.length = d.toNat → p.length ≤ m.toNat →
    s.Raw (0x7E#8 :: w ++ [0x7E#8]) n → s.req.maxlen = some m →
    EndsWithFrame (exec .decode s) s a c st d p

/-- R187: DECODE of the receive frame of any header and payload gives them back, whatever trails it. -/
def Obligations.DecodeOfReceiveFrameRoundTrip : Prop :=
  ∀ (s : State) (n : Nat) (m a c st : Byte) (p : List Byte), p.length ≤ 255 → p.length ≤ m.toNat →
    s.Raw (receiveFrame a c st p) n → s.req.maxlen = some m →
    EndsWithFrame (exec .decode s) s a c st (BitVec.ofNat 8 p.length) p

/-- The converse of the acceptance: a DECODE that succeeds has read a start marker, wire fields of the header, of
exactly `RDLEN` ≤ `MAXLEN` payload bytes and of the right checksum, and a stop marker, all below `RAWLEN` (R171,
R178). -/
def Obligations.DecodeSuccessMeansGoodFrame : Prop :=
  ∀ (s t : State), exec .decode s = .next t → t.res.rstate = 1#2 →
    ∃ (n : Nat) (m a c st d : Byte) (w p : List Byte),
      s.req.maxlen = some m ∧ FieldsOf w ([a, c, st, d] ++ p ++ [cksum (a + c + st) d p]) ∧ p.length = d.toNat ∧
      p.length ≤ m.toNat ∧ s.Raw (0x7E#8 :: w ++ [0x7E#8]) n ∧
      t.res.raddr = some a ∧ t.res.rcmd = some c ∧ t.res.rstatus = some st ∧ t.res.rdlen = some d ∧
      Memory.Holds t.res.rpay p

/-- DECODE ends on every buffer of values, in success or in one of its errors, never in a fault or a refusal (R170,
R190). -/
def Obligations.DecodeEndsOnEveryBuffer : Prop :=
  ∀ (s : State) (f : List Byte) (m : Byte), s.Raw f f.length → s.req.maxlen = some m →
    ∃ t, exec .decode s = .next t ∧
      (t.res.rstate = 1#2 ∨ ∃ c : BitVec 4, 2 ≤ c.toNat ∧ c.toNat ≤ 7 ∧ t.res = errorResult c)

/-- R188: a frame with one bit of one byte of its checksum field changed is ChecksumMismatch. -/
def Obligations.DecodeSeesASingleBitError : Prop :=
  ∀ (s : State) (m a c st : Byte) (p field : List Byte) (k j : Nat) (b : Byte),
    p.length ≤ 255 → p.length ≤ m.toNat → j < 8 →
    (stuffByte (receiveChecksum a c st p))[k]? = some b →
    field = (stuffByte (receiveChecksum a c st p)).set k (b ^^^ (1#8 <<< j)) →
    s.Raw (receiveBody a c st p ++ field ++ [0x7E#8]) (receiveBody a c st p ++ field ++ [0x7E#8]).length →
    s.req.maxlen = some m → EndsInError (exec .decode s) s 6#4

/-! ## Stops -/

/-- R24: CKSUM and STUFF with `INLEN` > 255, and DESTUFF and DECODE with `RAWLEN` > 522, are refused; ENCODE with
`INLEN` > 255 is not, it raises PayloadTooLarge. -/
def Obligations.RequestsOutOfRangeAreRefused : Prop :=
  (∀ (s : State) (n : BitVec 16), s.req.inlen = some n → 255 < n.toNat →
    exec .cksum s = .refused .inputTooLong ∧ exec .stuff s = .refused .inputTooLong ∧
    EndsInError (exec .encode s) s 1#4) ∧
  (∀ (s : State) (n : BitVec 10), s.req.rawlen = some n → 522 < n.toNat →
    exec .destuff s = .refused .rawTooLong ∧ exec .decode s = .refused .rawTooLong)

/-- A request register or cell that the operation needs and that holds ⊥ is a fault that names it (R41, R243). Which
of several is named, the first in the pseudocode's order, is the model's reading (log entries 4 and 5). The clauses for
`RAW` go through every cell that DESTUFF and DECODE index: the first and the second cell of a field, in HEADER, PAYLOAD and
CHECKSUM, the start cell and the stop cell. -/
def Obligations.MissingOperandFaults : Prop :=
  (∀ s : State, s.req.inlen = none →
    exec .cksum s = .fault (.noValue (.req .inlen)) ∧ exec .stuff s = .fault (.noValue (.req .inlen)) ∧
    exec .encode s = .fault (.noValue (.req .inlen))) ∧
  (∀ s : State, s.req.rawlen = none →
    exec .destuff s = .fault (.noValue (.req .rawlen)) ∧ exec .decode s = .fault (.noValue (.req .rawlen))) ∧
  (∀ (s : State) (p : List Byte), s.Input p →
    (s.req.hsum = none → exec .cksum s = .fault (.noValue (.req .hsum))) ∧
    (s.req.hsum ≠ none → s.req.dlen = none → exec .cksum s = .fault (.noValue (.req .dlen))) ∧
    (s.req.addr = none → exec .encode s = .fault (.noValue (.req .addr))) ∧
    (s.req.addr ≠ none → s.req.cmd = none → exec .encode s = .fault (.noValue (.req .cmd)))) ∧
  (∀ (s : State) (n : Nat), s.Raw [] n →
    (s.req.cur = none → exec .destuff s = .fault (.noValue (.req .cur))) ∧
    (s.req.maxlen = none → exec .decode s = .fault (.noValue (.req .maxlen)))) ∧
  (∀ (s : State) (n cur : BitVec 10), s.req.rawlen = some n → n.toNat ≤ 522 → s.req.cur = some cur →
    cur.toNat < n.toNat → s.req.rawBuf.read cur.toNat = none →
    exec .destuff s = .fault (.noValue (.cell .rawSpace cur.toNat))) ∧
  (∀ (s : State) (n : BitVec 10) (m : Byte), s.req.rawlen = some n → n.toNat ≤ 522 → 7 ≤ n.toNat → s.req.maxlen = some m →
    s.req.rawBuf.read 0 = none → exec .decode s = .fault (.noValue (.cell .rawSpace 0))) ∧
  (∀ (s : State) (p : List Byte) (n : BitVec 16), s.req.inlen = some n → n.toNat ≤ 255 → p.length < n.toNat →
    (∀ k, k < p.length → s.req.inBuf.read k = p[k]?) → s.req.inBuf.read p.length = none →
    exec .cksum s = .fault (.noValue (.cell .inSpace p.length)) ∧
    exec .stuff s = .fault (.noValue (.cell .inSpace p.length)) ∧
    exec .encode s = .fault (.noValue (.cell .inSpace p.length))) ∧
  (∀ (s : State) (n cur : BitVec 10), s.req.rawlen = some n → n.toNat ≤ 522 → s.req.cur = some cur →
    cur.toNat + 1 < n.toNat → s.req.rawBuf.read cur.toNat = some 0x7D#8 → s.req.rawBuf.read (cur.toNat + 1) = none →
    exec .destuff s = .fault (.noValue (.cell .rawSpace (cur.toNat + 1)))) ∧
  (∀ (s : State) (n : Nat) (m : Byte) (w bs tail : List Byte), FieldsOf w bs → bs.length < 4 →
    (tail = [] ∨ tail = [0x7D#8]) → 7 ≤ n → s.Raw (0x7E#8 :: w ++ tail) n → s.req.maxlen = some m →
    (0x7E#8 :: w ++ tail).length < n → s.req.rawBuf.read (0x7E#8 :: w ++ tail).length = none →
    exec .decode s = .fault (.noValue (.cell .rawSpace (0x7E#8 :: w ++ tail).length))) ∧
  (∀ (s : State) (n : Nat) (m a c st d : Byte) (w p tail : List Byte), FieldsOf w ([a, c, st, d] ++ p) →
    (p.length < d.toNat ∧ p.length < m.toNat ∨ p.length = d.toNat ∧ p.length ≤ m.toNat) →
    (tail = [] ∨ tail = [0x7D#8]) → 7 ≤ n → s.Raw (0x7E#8 :: w ++ tail) n → s.req.maxlen = some m →
    (0x7E#8 :: w ++ tail).length < n → s.req.rawBuf.read (0x7E#8 :: w ++ tail).length = none →
    exec .decode s = .fault (.noValue (.cell .rawSpace (0x7E#8 :: w ++ tail).length))) ∧
  (∀ (s : State) (n : Nat) (m a c st d : Byte) (w p : List Byte),
    FieldsOf w ([a, c, st, d] ++ p ++ [cksum (a + c + st) d p]) → p.length = d.toNat → p.length ≤ m.toNat → 7 ≤ n →
    s.Raw (0x7E#8 :: w) n → s.req.maxlen = some m → (0x7E#8 :: w).length < n →
    s.req.rawBuf.read (0x7E#8 :: w).length = none →
    exec .decode s = .fault (.noValue (.cell .rawSpace (0x7E#8 :: w).length)))

/-! ## The host -/

/-- R22, R43: a host write of a request register or cell sets it to that value and changes nothing else. -/
def Obligations.HostWriteSetsOnlyItsPlace : Prop :=
  ∀ (a : HostAction) (s : State) (p : Place) (v : Nat), a.target = some (p, v) → p.present = true → s.walk = none →
    ∃ t, act a s = .next t ∧ t.value p = some v ∧ (∀ q, q ≠ p → t.value q = s.value q) ∧ t.res = s.res ∧ t.walk = none

/-- R58: a host read changes nothing and gives the same answer again, and the only writes an instruction makes are to
the result registers and the transient state. -/
def Obligations.ReadsHaveNoSideEffect : Prop :=
  (∀ (p : Place) (s t : State), act (.read p) s = .next t → t = s ∧ hostRead p t = hostRead p s) ∧
  (∀ (p : Place) (s : State) (v : Nat), s.walk = none → p.present = true → s.value p = some v →
    hostRead p s = .ok v ∧ act (.read p) s = .next s) ∧
  (∀ (i : Instr) (s t : State), exec i s = .next t → ∀ r, t.value (.req r) = s.value (.req r)) ∧
  (∀ (i : Instr) (s t : State), exec i s = .next t → ∀ k,
    t.value (.cell .inSpace k) = s.value (.cell .inSpace k) ∧ t.value (.cell .rawSpace k) = s.value (.cell .rawSpace k))

/-- R43: outside an operation the host may write every request register and cell; a host write to a result register or a
result buffer, and an issue with `OP` in 5..7, are refused. A host read of ⊥ faults (R41). That a host action inside an
operation is refused is the model's own refusal (log entry 11), over the states of log entry 2; that a write to `OUT` or
`RPAY` is refused also at an index beyond the buffer is the model's choice (log entry 8). -/
def Obligations.HostAccessRules : Prop :=
  (∀ (a : HostAction) (s : State) (p : Place) (v : Nat), s.walk = none → a.target = some (p, v) → p.present = true →
    ∃ t, act a s = .next t) ∧
  (∀ (a : HostAction) (s : State), s.walk ≠ none → act a s = .refused .insideOperation) ∧
  (∀ (s : State), s.walk = none →
    (∀ r : ResName, act (.writeResult r) s = .refused (.resultRegister (.res r))) ∧
    (∀ i, act (.writeOut i) s = .refused (.resultRegister (.cell .outSpace i))) ∧
    (∀ i, act (.writeRpay i) s = .refused (.resultRegister (.cell .rpaySpace i))) ∧
    (∀ v : BitVec 3, s.req.op = some v → 5 ≤ v.toNat → act .issue s = .refused (.reservedOp v)) ∧
    (∀ (p : Place), p.present = true → s.value p = none → act (.read p) s = .fault (.noValue p)))

/-- R84, R101: the host program `CKSUM hsum, dlen, [p...]`, run from any state between operations, ends with the
checksum in `RBYTE`. -/
def Obligations.CksumRequestRuns : Prop :=
  ∀ (s : State) (hs dl : Byte) (p : List Byte), p.length ≤ 255 → s.walk = none →
    ∃ t, runActions (Request.cksum hs dl p).actions s = .next t ∧ t.res.rstate = 1#2 ∧ t.res.rbyte = some (cksum hs dl p)

/-- The other request forms of R84, run from any state between operations, `RAW` and `IN` holding whatever the requests
before left: `STUFF [p]` ends with the stuffed bytes (R131), `ENCODE addr, cmd, [p]` with the transmit frame (R151),
`ENCODE addr, cmd, len=N` above 255 in PayloadTooLarge (R152), and `DESTUFF [r], cur` and `DECODE [r], maxlen` end as the
operation does in every state that presents these operands. -/
def Obligations.OtherRequestsRun : Prop :=
  (∀ (s : State) (p : List Byte), p.length ≤ 255 → s.walk = none →
    ∃ t, runActions (Request.stuff p).actions s = .next t ∧ t.res.rstate = 1#2 ∧
      t.res.outlen = some (BitVec.ofNat 10 (stuff p).length) ∧ Memory.Holds t.res.outBuf (stuff p)) ∧
  (∀ (s : State) (a c : Byte) (p : List Byte), p.length ≤ 255 → s.walk = none →
    ∃ t, runActions (Request.encode a c p).actions s = .next t ∧ t.res.rstate = 1#2 ∧
      t.res.outlen = some (BitVec.ofNat 10 (transmitFrame a c p).length) ∧
      Memory.Holds t.res.outBuf (transmitFrame a c p)) ∧
  (∀ (s : State) (a c : Byte) (n : BitVec 16), 255 < n.toNat → s.walk = none →
    ∃ t, runActions (Request.encodeLen a c n).actions s = .next t ∧ t.res = errorResult 1#4) ∧
  (∀ (s s' : State) (r : List Byte) (cur : BitVec 10), s.walk = none → s'.Raw r r.length → s'.req.cur = some cur →
    ∃ t t', runActions (Request.destuff r cur).actions s = .next t ∧ exec .destuff s' = .next t' ∧ t.res = t'.res) ∧
  (∀ (s s' : State) (r : List Byte) (m : Byte), s.walk = none → s'.Raw r r.length → s'.req.maxlen = some m →
    ∃ t t', runActions (Request.decode r m).actions s = .next t ∧ exec .decode s' = .next t' ∧ t.res = t'.res)

/-! ## Wire symbols inside an operation

The spec makes an operation one atomic step (R21) and names the cursor and the phases as its transient state (R33,
R34). The
states between two symbols are the model's refinement of that step (log entry 2); the statements below are about it. -/

/-- Inside a DESTUFF (log entry 2; R33, R125) every wire symbol ends the operation with its logical byte and the index
after it. -/
def Obligations.SymbolEndsADestuff : Prop :=
  ∀ (i : Instr) (s : State) (cur : BitVec 10) (bs : List Byte) (b : Byte),
    i.wf = true → encode i = .wire bs → IsField bs b → s.walk = some (.destuff cur) →
    EndsWith (exec i s) s
      { rstate := 1#2, err := none, rbyte := some b, rnext := some (cur + BitVec.ofNat 10 bs.length), outlen := none,
        outBuf := [], raddr := none, rcmd := none, rstatus := none, rdlen := none, rpay := [] }

/-- In HEADER (log entry 2; R33, R175), before the fourth field, a symbol adds its logical byte and moves the cursor
past itself; nothing else changes. -/
def Obligations.SymbolInHeader : Prop :=
  ∀ (i : Instr) (s : State) (cur : BitVec 10) (got bs : List Byte) (b : Byte),
    i.wf = true → encode i = .wire bs → IsField bs b → s.walk = some (.header cur got) → got.length < 3 →
    exec i s = .next { s with walk := some (.header (cur + BitVec.ofNat 10 bs.length) (got ++ [b])) }

/-- The fourth header field is the declared length D and ends HEADER (log entry 2; R175, R176, R177): PAYLOAD follows
when D and `MAXLEN` are above 0 and the cursor is below `RAWLEN`; else IncompleteResponse when D is above 0; else
CHECKSUM. -/
def Obligations.SymbolEndsTheHeader : Prop :=
  ∀ (i : Instr) (s : State) (cur n : BitVec 10) (m a c st b : Byte) (bs : List Byte),
    i.wf = true → encode i = .wire bs → IsField bs b → s.walk = some (.header cur [a, c, st]) →
    s.req.rawlen = some n → n.toNat ≤ 522 → s.req.maxlen = some m →
    let cur' := cur + BitVec.ofNat 10 bs.length
    (0 < b.toNat → 0 < m.toNat → cur'.toNat < n.toNat →
      exec i s = .next { s with walk := some (.payload cur' ⟨a, c, st, b⟩ []) }) ∧
    (0 < b.toNat → (m.toNat = 0 ∨ n.toNat ≤ cur'.toNat) → EndsInError (exec i s) s 7#4) ∧
    (b = 0#8 → exec i s = .next { s with walk := some (.checksum cur' ⟨a, c, st, b⟩ []) })

/-- In PAYLOAD (log entry 2; R176, R177) a symbol adds its logical byte; PAYLOAD goes on while fewer than D and fewer
than `MAXLEN` bytes are obtained and the cursor is below `RAWLEN`; else IncompleteResponse below D, else CHECKSUM. -/
def Obligations.SymbolInPayload : Prop :=
  ∀ (i : Instr) (s : State) (cur n : BitVec 10) (m b : Byte) (h : Header) (pay bs : List Byte),
    i.wf = true → encode i = .wire bs → IsField bs b → s.walk = some (.payload cur h pay) →
    s.req.rawlen = some n → n.toNat ≤ 522 → s.req.maxlen = some m →
    let cur' := cur + BitVec.ofNat 10 bs.length
    (pay.length + 1 < h.dlen.toNat → pay.length + 1 < m.toNat → cur'.toNat < n.toNat →
      exec i s = .next { s with walk := some (.payload cur' h (pay ++ [b])) }) ∧
    (pay.length + 1 < h.dlen.toNat → (m.toNat ≤ pay.length + 1 ∨ n.toNat ≤ cur'.toNat) →
      EndsInError (exec i s) s 7#4) ∧
    (h.dlen.toNat ≤ pay.length + 1 → exec i s = .next { s with walk := some (.checksum cur' h (pay ++ [b])) })

/-- In CHECKSUM (log entry 2; R179, R180) a symbol whose logical byte is the computed checksum leads to STOP; any
other is ChecksumMismatch. -/
def Obligations.SymbolInChecksum : Prop :=
  ∀ (i : Instr) (s : State) (cur : BitVec 10) (b : Byte) (h : Header) (pay bs : List Byte),
    i.wf = true → encode i = .wire bs → IsField bs b → s.walk = some (.checksum cur h pay) →
    (b = cksum (h.addr + h.cmd + h.status) h.dlen pay →
      exec i s = .next { s with walk := some (.stop (cur + BitVec.ofNat 10 bs.length) h pay) }) ∧
    (b ≠ cksum (h.addr + h.cmd + h.status) h.dlen pay → EndsInError (exec i s) s 6#4)

/-- FLAG at the markers (log entry 2; R174, R181): it passes START into HEADER with the cursor moved by one, and at
STOP ends the DECODE in success; a symbol that does not begin with 0x7E is MissingStartMarker or MissingStopMarker
there. -/
def Obligations.FlagAtTheMarkers : Prop :=
  (∀ (s : State) (cur : BitVec 10), s.walk = some (.start cur) →
    exec .flag s = .next { s with walk := some (.header (cur + 1#10) []) }) ∧
  (∀ (s : State) (cur : BitVec 10) (h : Header) (pay : List Byte), s.walk = some (.stop cur h pay) →
    EndsWithFrame (exec .flag s) s h.addr h.cmd h.status h.dlen pay) ∧
  (∀ (i : Instr) (s : State) (bs : List Byte), encode i = .wire bs → bs.head? ≠ some 0x7E#8 →
    (∀ cur, s.walk = some (.start cur) → EndsInError (exec i s) s 3#4) ∧
    (∀ cur h pay, s.walk = some (.stop cur h pay) → EndsInError (exec i s) s 4#4))

/-- Outside an operation no wire symbol has a cursor to read at (R33, R34); that each is refused there is the model's
choice (log entry 12). -/
def Obligations.SymbolOutsideAnOperationIsRefused : Prop :=
  ∀ (i : Instr) (s : State), i.isRequest = false → s.walk = none → exec i s = .refused .outsideOperation

/-- DECODE, one atomic step, is its phases run one wire symbol at a time from START; so is DESTUFF, one symbol from
`CUR`. The phases are the model's refinement of the step (log entry 2; R21, R34, R170). -/
def Obligations.SymbolBySymbolIsTheAtomicOperation : Prop :=
  (∀ s : State,
    match openDecode s with
    | .next t => ∃ k, k ≤ 262 ∧ Host.Core.run core k t = exec .decode s
    | .fault f => exec .decode s = .fault f
    | .refused r => exec .decode s = .refused r) ∧
  (∀ s : State,
    match openDestuff s with
    | .next t => step t = exec .destuff s
    | .fault f => exec .destuff s = .fault f
    | .refused r => exec .destuff s = .refused r)
end

