-- ==== Sys2Proof/Laws/Memory.lean ====
section
/-! SUPPORT. The laws of a buffer: reading after writing, and the canonical form. -/

namespace Sys2Proof.Machine

@[simp] theorem Memory.read_nil (i : Nat) : Memory.read [] i = none := rfl

theorem Memory.read_cons (j : Nat) (b : Byte) (m : Memory) (i : Nat) :
    Memory.read ((j, b) :: m) i = if i = j then some b else Memory.read m i := rfl

/-- The cell just written holds the byte. -/
@[simp] theorem Memory.read_write_self (m : Memory) (i : Nat) (v : Byte) : (m.write i v).read i = some v := by
  induction m with
  | nil => simp [Memory.write, Memory.read]
  | cons c m ih =>
    obtain ⟨j, b⟩ := c
    simp only [Memory.write]
    split
    · simp [Memory.read]
    · split
      · simp [Memory.read]
      · rename_i h
        simp [Memory.read, h, ih]

/-- Every other cell reads as before. -/
theorem Memory.read_write_of_ne (m : Memory) {i j : Nat} (v : Byte) (hne : j ≠ i) :
    (m.write i v).read j = m.read j := by
  induction m with
  | nil => simp [Memory.write, Memory.read, hne]
  | cons c m ih =>
    obtain ⟨k, b⟩ := c
    simp only [Memory.write]
    split
    · simp [Memory.read, hne]
    · split
      · rename_i h
        subst h
        simp [Memory.read, hne]
      · simp only [Memory.read_cons, ih]

theorem Memory.read_write (m : Memory) (i j : Nat) (v : Byte) :
    (m.write i v).read j = if j = i then some v else m.read j := by
  split
  · subst_vars; simp
  · rename_i h; exact Memory.read_write_of_ne m v h

/-- A run of bytes written from cell `i` on is read back there, and every other cell reads as before. -/
theorem Memory.read_writeAll (bs : List Byte) (i : Nat) (m : Memory) (j : Nat) :
    (Memory.writeAll i bs m).read j = if i ≤ j ∧ j < i + bs.length then bs[j - i]? else m.read j := by
  induction bs generalizing i m with
  | nil => simp [Memory.writeAll]
  | cons b bs ih =>
    simp only [Memory.writeAll, ih, Memory.read_write, List.length_cons]
    by_cases h : j = i
    · subst h; simp
    · by_cases h2 : i + 1 ≤ j ∧ j < i + 1 + bs.length
      · have h3 : i ≤ j ∧ j < i + (bs.length + 1) := by omega
        have h4 : j - i = (j - (i + 1)) + 1 := by omega
        simp [h2, h3, h4]
      · have h3 : ¬ (i ≤ j ∧ j < i + (bs.length + 1)) := by omega
        rw [if_neg h2, if_neg h3, if_neg h]

/-- A buffer made of `bs` holds exactly `bs`. -/
@[simp] theorem Memory.read_ofBytes (bs : List Byte) (k : Nat) : (Memory.ofBytes bs).read k = bs[k]? := by
  rw [Memory.ofBytes, Memory.read_writeAll]
  split
  · simp
  · rename_i h
    have : bs.length ≤ k := by omega
    simp [this]

/-- The canonical form as two plain facts. -/
theorem Memory.wf_iff (cap : Nat) (m : Memory) :
    m.wf cap = true ↔ (m.map Prod.fst).Pairwise (· < ·) ∧ ∀ c ∈ m, c.1 < cap := by
  simp [Memory.wf]

/-- The keys of a buffer after a write. -/
theorem Memory.mem_write {m : Memory} {i : Nat} {v : Byte} {c : Host.Cell} (h : c ∈ m.write i v) :
    c = (i, v) ∨ c ∈ m := by
  induction m with
  | nil => simpa [Memory.write] using h
  | cons d m ih =>
    obtain ⟨j, b⟩ := d
    simp only [Memory.write] at h
    split at h
    · simpa using h
    · split at h
      · simp only [List.mem_cons] at h ⊢
        tauto
      · simp only [List.mem_cons] at h ⊢
        rcases h with h | h
        · tauto
        · rcases ih h with h | h <;> tauto

/-- A write within the capacity keeps the canonical form. -/
theorem Memory.write_wf {cap : Nat} {m : Memory} {i : Nat} (v : Byte) (hi : i < cap) (hm : m.wf cap = true) :
    (m.write i v).wf cap = true := by
  rw [Memory.wf_iff] at hm ⊢
  obtain ⟨hs, hb⟩ := hm
  refine ⟨?_, fun c hc => ?_⟩
  · clear hb
    induction m with
    | nil => simp [Memory.write]
    | cons d m ih =>
      obtain ⟨j, b⟩ := d
      simp only [List.map_cons, List.pairwise_cons, List.mem_map] at hs
      simp only [Memory.write]
      split
      · rename_i hij
        simp only [List.map_cons, List.pairwise_cons, List.mem_cons, List.mem_map]
        refine ⟨?_, ⟨by simpa using hs.1, hs.2⟩⟩
        rintro a (rfl | ⟨c, hc, rfl⟩)
        · exact hij
        · exact lt_trans hij (hs.1 _ ⟨c, hc, rfl⟩)
      · split
        · subst_vars
          simpa using hs
        · simp only [List.map_cons, List.pairwise_cons, List.mem_map]
          refine ⟨?_, ih hs.2⟩
          rintro a ⟨c, hc, rfl⟩
          rcases Memory.mem_write hc with rfl | hc
          · show j < i
            omega
          · exact hs.1 _ ⟨c, hc, rfl⟩
  · rcases Memory.mem_write hc with rfl | hc
    · exact hi
    · exact hb c hc

/-- Writing above every key adds the cell at the end. -/
theorem Memory.write_above {m : Memory} {i : Nat} (v : Byte) (h : ∀ c ∈ m, c.1 < i) : m.write i v = m ++ [(i, v)] := by
  induction m with
  | nil => rfl
  | cons d m ih =>
    obtain ⟨j, b⟩ := d
    have hj : j < i := h (j, b) (by simp)
    have h1 : ¬ i < j := by omega
    have h2 : i ≠ j := by omega
    simp [Memory.write, h1, h2, ih (fun c hc => h c (by simp [hc]))]

/-- The keys of a run written above every key. -/
theorem Memory.keys_writeAll (bs : List Byte) (i : Nat) (m : Memory) (h : ∀ c ∈ m, c.1 < i) :
    (Memory.writeAll i bs m).map Prod.fst = m.map Prod.fst ++ List.range' i bs.length := by
  induction bs generalizing i m with
  | nil => simp [Memory.writeAll]
  | cons b bs ih =>
    rw [Memory.writeAll, Memory.write_above b h, ih]
    · simp [List.range'_succ]
    · intro c hc
      simp only [List.mem_append, List.mem_singleton] at hc
      rcases hc with hc | rfl
      · have := h c hc; omega
      · simp

/-- A buffer made of `bs` has exactly the cells below |bs|. -/
theorem Memory.keys_ofBytes (bs : List Byte) : (Memory.ofBytes bs).map Prod.fst = List.range bs.length := by
  rw [Memory.ofBytes, Memory.keys_writeAll _ _ _ (by simp)]
  simp [List.range_eq_range']

/-- A run written within the capacity keeps the canonical form. -/
theorem Memory.writeAll_wf {cap : Nat} (bs : List Byte) {i : Nat} {m : Memory} (hi : i + bs.length ≤ cap)
    (hm : m.wf cap = true) : (Memory.writeAll i bs m).wf cap = true := by
  induction bs generalizing i m with
  | nil => simpa [Memory.writeAll] using hm
  | cons b bs ih =>
    simp only [List.length_cons] at hi
    exact ih (by omega) (Memory.write_wf b (by omega) hm)

/-- A buffer made of `bs` is canonical where it fits. -/
theorem Memory.ofBytes_wf {cap : Nat} {bs : List Byte} (h : bs.length ≤ cap) : (Memory.ofBytes bs).wf cap = true :=
  Memory.writeAll_wf bs (by omega) (by simp [Memory.wf])

end Sys2Proof.Machine
end

