-- ==== Sys2Proof/Laws/State.lean ====
section
/-! SUPPORT. One lemma per field per update of the state, and what the ends of an operation can answer. -/

namespace Sys2Proof

/-! ### The register widths as numbers (R5): true by rfl, so that a proof sees `BitVec 10` and `2 ^ 10` -/

@[simp] theorem Config.OP_WIDTH_eq : Config.OP_WIDTH = 3 := rfl
@[simp] theorem Config.INLEN_WIDTH_eq : Config.INLEN_WIDTH = 16 := rfl
@[simp] theorem Config.INDEX_WIDTH_eq : Config.INDEX_WIDTH = 10 := rfl
@[simp] theorem Config.MAXLEN_WIDTH_eq : Config.MAXLEN_WIDTH = 8 := rfl
@[simp] theorem Config.ERR_WIDTH_eq : Config.ERR_WIDTH = 4 := rfl

end Sys2Proof

namespace Sys2Proof.Machine

@[simp] theorem finish_req (r : ResRegs) (s : State) : (finish r s).req = s.req := rfl
@[simp] theorem finish_walk (r : ResRegs) (s : State) : (finish r s).walk = none := rfl
@[simp] theorem finish_res (r : ResRegs) (s : State) : (finish r s).res = { r with rstate := OK } := rfl

@[simp] theorem raise_req (e : ErrKind) (s : State) : (raise e s).req = s.req := rfl
@[simp] theorem raise_walk (e : ErrKind) (s : State) : (raise e s).walk = none := rfl
@[simp] theorem raise_res (e : ErrKind) (s : State) :
    (raise e s).res = { ResRegs.blank with err := some e.code, rstate := ERR } := rfl

@[simp] theorem openWalk_req (w : Walk) (s : State) : (openWalk w s).req = s.req := rfl
@[simp] theorem openWalk_walk (w : Walk) (s : State) : (openWalk w s).walk = some w := rfl
@[simp] theorem openWalk_res (w : Walk) (s : State) :
    (openWalk w s).res = { ResRegs.blank with rstate := s.res.rstate } := rfl

@[simp] theorem halt_raised (s : State) (e : ErrKind) : halt s (.raised e) = .next (raise e s) := rfl
@[simp] theorem halt_fault (s : State) (f : Fault) : halt s (.fault f) = .fault f := rfl
@[simp] theorem halt_refused (s : State) (r : Refusal) : halt s (.refused r) = .refused r := rfl

@[simp] theorem conclude_ok (s : State) (r : ResRegs) : conclude s (.ok r) = .next (finish r s) := rfl
@[simp] theorem conclude_error (s : State) (e : Stop) : conclude s (.error e) = halt s e := rfl

@[simp] theorem proceed_more (s : State) (w : Walk) : proceed s (.ok (.more w)) = .next { s with walk := some w } := rfl
@[simp] theorem proceed_done (s : State) (r : ResRegs) : proceed s (.ok (.done r)) = .next (finish r s) := rfl
@[simp] theorem proceed_error (s : State) (e : Stop) : proceed s (.error e) = halt s e := rfl

/-- The one way `halt` answers a next state is `raise`. -/
theorem halt_next {s t : State} {e : Stop} (h : halt s e = .next t) : ∃ k, e = .raised k ∧ t = raise k s := by
  cases e with
  | raised k => exact ⟨k, rfl, by simpa using h.symm⟩
  | fault f => simp at h
  | refused r => simp at h

/-- A whole operation answers a next state by finishing or by raising one error. -/
theorem conclude_next {s t : State} {x : Except Stop ResRegs} (h : conclude s x = .next t) :
    (∃ r, x = .ok r ∧ t = finish r s) ∨ ∃ k, x = .error (.raised k) ∧ t = raise k s := by
  cases x with
  | ok r => exact .inl ⟨r, rfl, by simpa using h.symm⟩
  | error e =>
    obtain ⟨k, rfl, rfl⟩ := halt_next (by simpa using h)
    exact .inr ⟨k, rfl, rfl⟩

/-- One wire symbol answers a next state by moving the transient state on, by finishing or by raising one error. -/
theorem proceed_next {s t : State} {x : Except Stop Move} (h : proceed s x = .next t) :
    (∃ w, x = .ok (.more w) ∧ t = { s with walk := some w }) ∨ (∃ r, x = .ok (.done r) ∧ t = finish r s) ∨
      ∃ k, x = .error (.raised k) ∧ t = raise k s := by
  match x, h with
  | .ok (.more w), h => exact .inl ⟨w, rfl, by simpa using h.symm⟩
  | .ok (.done r), h => exact .inr (.inl ⟨r, rfl, by simpa using h.symm⟩)
  | .error e, h =>
    obtain ⟨k, rfl, rfl⟩ := halt_next (by simpa using h)
    exact .inr (.inr ⟨k, rfl, rfl⟩)

end Sys2Proof.Machine
end

