-- ==== Sys2Proof/Laws/Operands.lean ====
section
/-! SUPPORT. What reading the operands answers. -/

namespace Sys2Proof.Machine

@[simp] theorem operand_some {α : Type} (p : Place) (v : α) : operand p (some v) = .ok v := rfl
@[simp] theorem operand_none {α : Type} (p : Place) : operand p (none : Option α) = .error (.fault (.noValue p)) := rfl

theorem operand_eq_ok {α : Type} {p : Place} {o : Option α} {v : α} : operand p o = .ok v ↔ o = some v := by
  cases o <;> simp

/-- Reading an operand never raises an error of the block. -/
theorem operand_not_raised {α : Type} (p : Place) (o : Option α) (e : ErrKind) : operand p o ≠ .error (.raised e) := by
  cases o <;> simp

@[simp] theorem ok_bind {α β ε : Type} (a : α) (f : α → Except ε β) : (Except.ok a >>= f) = f a := rfl
@[simp] theorem error_bind {α β ε : Type} (e : ε) (f : α → Except ε β) :
    ((Except.error e : Except ε α) >>= f) = .error e := rfl

theorem bind_eq_ok {α β ε : Type} {x : Except ε α} {f : α → Except ε β} {b : β} :
    (x >>= f) = .ok b ↔ ∃ a, x = .ok a ∧ f a = .ok b := by
  cases x <;> simp

theorem bind_eq_error {α β ε : Type} {x : Except ε α} {f : α → Except ε β} {e : ε} :
    (x >>= f) = .error e ↔ x = .error e ∨ ∃ a, x = .ok a ∧ f a = .error e := by
  cases x <;> simp

/-- Cells that hold `bs` from `i` on are read as `bs`. -/
theorem readInput_ok (m : Memory) (bs : List Byte) (i : Nat) (h : ∀ k, k < bs.length → m.read (i + k) = bs[k]?) :
    readInput m bs.length i = .ok bs := by
  induction bs generalizing i with
  | nil => rfl
  | cons b bs ih =>
    have h0 : m.read i = some b := by simpa using h 0 (by simp)
    have ht : readInput m bs.length (i + 1) = .ok bs :=
      ih (i + 1) (fun k hk => by
        have := h (k + 1) (by simpa using hk)
        simpa [Nat.add_assoc, Nat.add_comm 1 k] using this)
    simp [readInput, h0, ht]

/-- What `readInput` answers is what the cells hold. -/
theorem readInput_eq_ok {m : Memory} {n i : Nat} {bs : List Byte} (h : readInput m n i = .ok bs) :
    bs.length = n ∧ ∀ k, k < n → m.read (i + k) = bs[k]? := by
  induction n generalizing i bs with
  | zero =>
    simp only [readInput, Except.ok.injEq] at h
    subst h
    simp
  | succ n ih =>
    simp only [readInput, bind_eq_ok, operand_eq_ok, Except.ok.injEq] at h
    obtain ⟨b, hb, bs', hbs, rfl⟩ := h
    obtain ⟨hl, hr⟩ := ih hbs
    refine ⟨by simp [hl], fun k hk => ?_⟩
    cases k with
    | zero => simpa using hb
    | succ k =>
      have := hr k (by omega)
      simpa [Nat.add_assoc, Nat.add_comm 1 k] using this

/-- `readInput` never raises an error of the block. -/
theorem readInput_not_raised (m : Memory) (n i : Nat) (e : ErrKind) : readInput m n i ≠ .error (.raised e) := by
  induction n generalizing i with
  | zero => simp [readInput]
  | succ n ih =>
    intro h
    simp only [readInput, bind_eq_error] at h
    rcases h with h | ⟨b, -, h | ⟨bs, -, h⟩⟩
    · exact operand_not_raised _ _ _ h
    · exact ih _ h
    · simp at h

/-- A first ⊥ at cell `i + |bs|` is the fault of `readInput`. -/
theorem readInput_fault (m : Memory) (bs : List Byte) (n i : Nat) (hn : bs.length < n)
    (h : ∀ k, k < bs.length → m.read (i + k) = bs[k]?) (hbot : m.read (i + bs.length) = none) :
    readInput m n i = .error (.fault (.noValue (.cell .inSpace (i + bs.length)))) := by
  induction bs generalizing i n with
  | nil =>
    obtain ⟨n, rfl⟩ : ∃ k, n = k + 1 := ⟨n - 1, by simp at hn; omega⟩
    have hb : m.read i = none := by simpa using hbot
    simp [readInput, hb]
  | cons b bs ih =>
    obtain ⟨n, rfl⟩ : ∃ k, n = k + 1 := ⟨n - 1, by simp at hn; omega⟩
    have h0 : m.read i = some b := by simpa using h 0 (by simp)
    have e : i + (b :: bs).length = i + 1 + bs.length := by simp; omega
    rw [e] at hbot ⊢
    have ht := ih n (i + 1) (by simpa using hn) (fun k hk => by
        have := h (k + 1) (by simpa using hk)
        simpa [Nat.add_assoc, Nat.add_comm 1 k] using this) hbot
    simp [readInput, h0, ht]

theorem inputLength_some {s : State} {n : BitVec 16} (h : s.req.inlen = some n) : inputLength s = .ok n.toNat := by
  simp [inputLength, h]

theorem boundedInputLength_some {s : State} {n : BitVec 16} (h : s.req.inlen = some n) (hn : n.toNat ≤ 255) :
    boundedInputLength s = .ok n.toNat := by
  have : ¬ n.toNat > Config.IN_CAP := by simp only [Config.IN_CAP]; omega
  simp [boundedInputLength, inputLength_some h, this]

theorem boundedInputLength_above {s : State} {n : BitVec 16} (h : s.req.inlen = some n) (hn : 255 < n.toNat) :
    boundedInputLength s = .error (.refused .inputTooLong) := by
  have : n.toNat > Config.IN_CAP := by simp only [Config.IN_CAP]; omega
  simp [boundedInputLength, inputLength_some h, this]

theorem boundedInputLength_none {s : State} (h : s.req.inlen = none) :
    boundedInputLength s = .error (.fault (.noValue (.req .inlen))) := by
  simp [boundedInputLength, inputLength, h]

theorem boundedInputLength_eq_ok {s : State} {n : Nat} (h : boundedInputLength s = .ok n) :
    n ≤ 255 ∧ ∃ v, s.req.inlen = some v ∧ v.toNat = n := by
  simp only [boundedInputLength, inputLength, bind_eq_ok, operand_eq_ok, Except.ok.injEq] at h
  obtain ⟨a, ⟨v, hv, rfl⟩, h⟩ := h
  split at h
  · simp at h
  · rename_i hle
    simp only [Except.ok.injEq] at h
    subst h
    exact ⟨by simpa [Config.IN_CAP] using hle, v, hv, rfl⟩

theorem boundedInputLength_not_raised (s : State) (e : ErrKind) : boundedInputLength s ≠ .error (.raised e) := by
  intro h
  simp only [boundedInputLength, inputLength, bind_eq_error] at h
  rcases h with (h | ⟨a, -, h⟩) | ⟨a, -, h⟩
  · exact operand_not_raised _ _ _ h
  · simp at h
  · split at h <;> simp at h

theorem rawLength_some {s : State} {n : BitVec 10} (h : s.req.rawlen = some n) (hn : n.toNat ≤ 522) :
    rawLength s = .ok n.toNat := by
  have : ¬ n.toNat > Config.RX_FRAME_CAP := by simp only [Config.RX_FRAME_CAP]; omega
  simp [rawLength, h, this]

theorem rawLength_ofNat {s : State} {n : Nat} (h : s.req.rawlen = some (BitVec.ofNat 10 n)) (hn : n ≤ 522) :
    rawLength s = .ok n := by
  have e : (BitVec.ofNat 10 n).toNat = n := by simp; omega
  simpa [e] using rawLength_some h (by omega)

theorem rawLength_above {s : State} {n : BitVec 10} (h : s.req.rawlen = some n) (hn : 522 < n.toNat) :
    rawLength s = .error (.refused .rawTooLong) := by
  have : n.toNat > Config.RX_FRAME_CAP := by simp only [Config.RX_FRAME_CAP]; omega
  simp [rawLength, h, this]

theorem rawLength_none {s : State} (h : s.req.rawlen = none) : rawLength s = .error (.fault (.noValue (.req .rawlen)))
    := by
  simp [rawLength, h]

theorem rawLength_eq_ok {s : State} {n : Nat} (h : rawLength s = .ok n) :
    n ≤ 522 ∧ s.req.rawlen = some (BitVec.ofNat 10 n) := by
  simp only [rawLength, bind_eq_ok, operand_eq_ok] at h
  obtain ⟨v, hv, h⟩ := h
  split at h
  · simp at h
  · rename_i hle
    simp only [Except.ok.injEq] at h
    subst h
    exact ⟨by simpa [Config.RX_FRAME_CAP] using hle, by simpa using hv⟩

theorem rawLength_not_raised (s : State) (e : ErrKind) : rawLength s ≠ .error (.raised e) := by
  intro h
  simp only [rawLength, bind_eq_error] at h
  rcases h with h | ⟨a, -, h⟩
  · exact operand_not_raised _ _ _ h
  · split at h <;> simp at h

/-- The presented input, read. -/
theorem State.Input.read {s : State} {p : List Byte} (h : s.Input p) :
    inputLength s = .ok p.length ∧ boundedInputLength s = .ok p.length ∧ readInput s.req.inBuf p.length 0 = .ok p := by
  obtain ⟨hl, hn, hc⟩ := h
  have e : (BitVec.ofNat 16 p.length).toNat = p.length := by simp; omega
  refine ⟨?_, ?_, readInput_ok _ _ _ (by simpa using hc)⟩
  · simpa [e] using inputLength_some hn
  · simpa [e] using boundedInputLength_some hn (by omega)

end Sys2Proof.Machine
end

