-- ==== Sys2Proof/Laws/Stuffing.lean ====
section
/-! SUPPORT. The wire fields, the stuffer and the destuffer. -/

namespace Sys2Proof.Machine

/-- The cells from `i` on hold the bytes `w`. -/
def Memory.HasAt (m : Memory) (i : Nat) (w : List Byte) : Prop := ∀ k, k < w.length → m.read (i + k) = w[k]?

theorem Memory.hasAt_nil (m : Memory) (i : Nat) : m.HasAt i [] := by
  intro k hk
  simp at hk

theorem Memory.hasAt_append {m : Memory} {i : Nat} {u v : List Byte} :
    m.HasAt i (u ++ v) ↔ m.HasAt i u ∧ m.HasAt (i + u.length) v := by
  constructor
  · intro h
    refine ⟨fun k hk => ?_, fun k hk => ?_⟩
    · rw [h k (by simp; omega), List.getElem?_append_left hk]
    · rw [Nat.add_assoc, h (u.length + k) (by simp; omega), List.getElem?_append_right (by omega)]
      simp
  · rintro ⟨hu, hv⟩ k hk
    by_cases hlt : k < u.length
    · rw [hu k hlt, List.getElem?_append_left hlt]
    · have := hv (k - u.length) (by simp at hk; omega)
      rw [List.getElem?_append_right (by omega), ← this]
      congr 1
      omega

theorem Memory.hasAt_singleton {m : Memory} {i : Nat} {b : Byte} : m.HasAt i [b] ↔ m.read i = some b := by
  constructor
  · intro h
    simpa using h 0 (by simp)
  · intro h k hk
    obtain rfl : k = 0 := by simpa using hk
    simpa using h

theorem Memory.hasAt_cons {m : Memory} {i : Nat} {b : Byte} {w : List Byte} :
    m.HasAt i (b :: w) ↔ m.read i = some b ∧ m.HasAt (i + 1) w := by
  have := Memory.hasAt_append (m := m) (i := i) (u := [b]) (v := w)
  simpa [Memory.hasAt_singleton] using this

theorem Memory.hasAt_ofBytes (pre w post : List Byte) : (Memory.ofBytes (pre ++ w ++ post)).HasAt pre.length w := by
  intro k hk
  rw [Memory.read_ofBytes, List.append_assoc, List.getElem?_append_right (by omega), List.getElem?_append_left
      (by omega)]
  simp

theorem State.Raw.hasAt {s : State} {f : List Byte} {n : Nat} (h : s.Raw f n) : s.req.rawBuf.HasAt 0 f := by
  intro k hk
  simpa using h.2.2.2 k hk

/-! ### Fields -/

theorem IsField.length_pos {w : List Byte} {b : Byte} (h : IsField w b) : 0 < w.length := by
  rcases h with ⟨-, rfl⟩ | ⟨x, rfl, -⟩ <;> simp

theorem IsField.length_le {w : List Byte} {b : Byte} (h : IsField w b) : w.length ≤ 2 := by
  rcases h with ⟨-, rfl⟩ | ⟨x, rfl, -⟩ <;> simp

/-- A field's first byte fixes its length, and the field its logical byte (R72). -/
theorem IsField.unique {u u' v v' : List Byte} {b b' : Byte} (h : IsField u b) (h' : IsField u' b')
    (e : u ++ v = u' ++ v') : b = b' ∧ u = u' ∧ v = v' := by
  rcases h with ⟨hb, rfl⟩ | ⟨x, rfl, rfl⟩ <;> rcases h' with ⟨hb', rfl⟩ | ⟨x', rfl, rfl⟩ <;>
    simp_all

theorem FieldsOf.append {u v bs cs : List Byte} (hu : FieldsOf u bs) (hv : FieldsOf v cs) :
    FieldsOf (u ++ v) (bs ++ cs) := by
  induction bs generalizing u with
  | nil =>
    obtain rfl : u = [] := hu
    simpa using hv
  | cons b bs ih =>
    obtain ⟨x, y, rfl, hx, hy⟩ := hu
    exact ⟨x, y ++ v, by simp, hx, ih hy⟩

theorem FieldsOf.split {w bs cs : List Byte} (h : FieldsOf w (bs ++ cs)) :
    ∃ u v, w = u ++ v ∧ FieldsOf u bs ∧ FieldsOf v cs := by
  induction bs generalizing w with
  | nil => exact ⟨[], w, rfl, rfl, h⟩
  | cons b bs ih =>
    obtain ⟨x, y, rfl, hx, hy⟩ := h
    obtain ⟨u, v, rfl, hu, hv⟩ := ih hy
    exact ⟨x ++ u, v, by simp, ⟨x, u, rfl, hx, hu⟩, hv⟩

theorem FieldsOf.unique {w bs cs : List Byte} (h : FieldsOf w bs) (h' : FieldsOf w cs) : bs = cs := by
  induction bs generalizing w cs with
  | nil =>
    obtain rfl : w = [] := h
    cases cs with
    | nil => rfl
    | cons c cs =>
      obtain ⟨x, y, e, hx, -⟩ := h'
      have := hx.length_pos
      simp [show x = [] by simpa using (List.append_eq_nil_iff.mp e.symm).1] at this
  | cons b bs ih =>
    obtain ⟨x, y, rfl, hx, hy⟩ := h
    cases cs with
    | nil =>
      have e : x ++ y = [] := h'
      have := hx.length_pos
      simp [show x = [] from (List.append_eq_nil_iff.mp e).1] at this
    | cons c cs =>
      obtain ⟨x', y', e, hx', hy'⟩ := h'
      obtain ⟨rfl, rfl, rfl⟩ := IsField.unique hx hx' e
      rw [ih hy hy']

theorem FieldsOf.length_le {w bs : List Byte} (h : FieldsOf w bs) : bs.length ≤ w.length := by
  induction bs generalizing w with
  | nil => simp
  | cons b bs ih =>
    obtain ⟨x, y, rfl, hx, hy⟩ := h
    have := hx.length_pos
    have := ih hy
    simp only [List.length_cons, List.length_append]
    omega

theorem fieldsOf_singleton {w : List Byte} {b : Byte} : FieldsOf w [b] ↔ IsField w b := by
  constructor
  · rintro ⟨u, v, rfl, hu, hv⟩
    obtain rfl : v = [] := hv
    simpa using hu
  · intro h
    exact ⟨w, [], by simp, h, rfl⟩

/-! ### The stuffer -/

theorem isReserved_iff (b : Byte) : isReserved b = true ↔ b = 0x11#8 ∨ b = 0x13#8 ∨ b = 0x7D#8 ∨ b = 0x7E#8 := by
  simp [isReserved, Config.RESERVED]

theorem stuffByte_reserved {b : Byte} (h : isReserved b = true) : stuffByte b = [0x7D#8, b ^^^ 0x20#8] := by
  simp [stuffByte, h, Config.ESC, Config.XMASK]

theorem stuffByte_plain {b : Byte} (h : isReserved b = false) : stuffByte b = [b] := by
  simp [stuffByte, h]

theorem stuffByte_isField (b : Byte) : IsField (stuffByte b) b := by
  cases h : isReserved b with
  | true =>
    refine .inr ⟨b ^^^ 0x20#8, stuffByte_reserved h, ?_⟩
    rw [BitVec.xor_assoc]
    simp
  | false =>
    refine .inl ⟨?_, stuffByte_plain h⟩
    rintro rfl
    exact absurd h (by decide)

@[simp] theorem stuff_nil : stuff [] = [] := rfl
@[simp] theorem stuff_cons (b : Byte) (p : List Byte) : stuff (b :: p) = stuffByte b ++ stuff p := rfl

/-- Concatenation keeps the field boundaries (R129). -/
theorem stuff_append (p q : List Byte) : stuff (p ++ q) = stuff p ++ stuff q := by
  induction p with
  | nil => rfl
  | cons b p ih => simp [ih]

theorem stuff_fieldsOf (p : List Byte) : FieldsOf (stuff p) p := by
  induction p with
  | nil => rfl
  | cons b p ih => exact ⟨stuffByte b, stuff p, rfl, stuffByte_isField b, ih⟩

theorem stuffByte_length (b : Byte) : (stuffByte b).length = 1 + reservedCount [b] := by
  cases h : isReserved b <;> simp [stuffByte, reservedCount, h]

/-- The length law of the stuffer (R123). -/
theorem stuff_length (p : List Byte) : (stuff p).length = p.length + reservedCount p := by
  induction p with
  | nil => rfl
  | cons b p ih =>
    have e : reservedCount (b :: p) = reservedCount [b] + reservedCount p := by
      simp [reservedCount, List.countP_cons, Nat.add_comm]
    simp only [stuff_cons, List.length_append, stuffByte_length, ih, e, List.length_cons]
    omega

theorem reservedCount_le (p : List Byte) : reservedCount p ≤ p.length := List.countP_le_length

theorem reservedCount_append (p q : List Byte) : reservedCount (p ++ q) = reservedCount p + reservedCount q := by
  simp [reservedCount]

/-! ### The destuffer -/

theorem readRaw_some {m : Memory} {i : Nat} {b : Byte} (h : m.read i = some b) : readRaw m i = .ok b := by
  simp [readRaw, h]

theorem readRaw_eq_ok {m : Memory} {i : Nat} {b : Byte} : readRaw m i = .ok b ↔ m.read i = some b := by
  simp [readRaw, operand_eq_ok]

/-- The destuffer reads one field (R125). -/
theorem destuff_field {m : Memory} {n i : Nat} {u : List Byte} {b : Byte} (hm : m.HasAt i u) (hu : IsField u b)
    (hn : i + u.length ≤ n) : destuff m n i = .ok (b, i + u.length) := by
  rcases hu with ⟨hb, rfl⟩ | ⟨x, rfl, rfl⟩
  · rw [Memory.hasAt_singleton] at hm
    have h1 : ¬ n ≤ i := by simp at hn; omega
    simp [destuff, h1, readRaw_some hm, Config.ESC, hb]
  · rw [Memory.hasAt_cons, Memory.hasAt_singleton] at hm
    simp only [List.length_cons, List.length_nil] at hn
    have h1 : ¬ n ≤ i := by omega
    have h2 : ¬ i + 1 = n := by omega
    simp [destuff, h1, h2, readRaw_some hm.1, readRaw_some hm.2, Config.ESC, Config.XMASK]

/-- A start index at or beyond the end is TruncatedFrame (R125). -/
theorem destuff_past {m : Memory} {n i : Nat} (h : n ≤ i) : destuff m n i = .error (.raised .truncatedFrame) := by
  simp [destuff, h]

/-- An escape in the last byte is TruncatedFrame (R125). -/
theorem destuff_lone {m : Memory} {n i : Nat} (h : i + 1 = n) (hm : m.read i = some 0x7D#8) :
    destuff m n i = .error (.raised .truncatedFrame) := by
  have h1 : ¬ n ≤ i := by omega
  simp [destuff, h1, readRaw_some hm, Config.ESC, h]

/-- What the destuffer answers is a field of the buffer (R125). -/
theorem destuff_eq_ok {m : Memory} {n i j : Nat} {b : Byte} (h : destuff m n i = .ok (b, j)) :
    ∃ u, IsField u b ∧ m.HasAt i u ∧ j = i + u.length ∧ j ≤ n := by
  unfold destuff at h
  split at h
  · simp at h
  · rename_i hlt
    simp only [bind_eq_ok, readRaw_eq_ok] at h
    obtain ⟨c, hc, h⟩ := h
    split at h
    · rename_i hesc
      subst hesc
      split at h
      · simp at h
      · simp only [bind_eq_ok, readRaw_eq_ok, Except.ok.injEq, Prod.mk.injEq] at h
        obtain ⟨x, hx, rfl, rfl⟩ := h
        refine ⟨[0x7D#8, x], .inr ⟨x, rfl, rfl⟩, ?_, rfl, by omega⟩
        rw [Memory.hasAt_cons, Memory.hasAt_singleton]
        exact ⟨hc, hx⟩
    · rename_i hesc
      simp only [Except.ok.injEq, Prod.mk.injEq] at h
      obtain ⟨rfl, rfl⟩ := h
      exact ⟨[c], .inl ⟨hesc, rfl⟩, Memory.hasAt_singleton.mpr hc, rfl, by omega⟩

/-- The one error of the destuffer (R125). -/
theorem destuff_raised {m : Memory} {n i : Nat} {e : ErrKind} (h : destuff m n i = .error (.raised e)) :
    e = .truncatedFrame := by
  unfold destuff at h
  split at h
  · simpa using h.symm
  · simp only [bind_eq_error] at h
    rcases h with h | ⟨c, -, h⟩
    · exact absurd h (operand_not_raised _ _ _)
    · split at h
      · split at h
        · simpa using h.symm
        · simp only [bind_eq_error] at h
          rcases h with h | ⟨x, -, h⟩
          · exact absurd h (operand_not_raised _ _ _)
          · simp at h
      · simp at h

/-- On a buffer whose first `n` cells hold values the destuffer answers a field or TruncatedFrame, never a fault. -/
theorem destuff_total {m : Memory} {n : Nat} (hv : ∀ k, k < n → m.read k ≠ none) (i : Nat) :
    (∃ b j, destuff m n i = .ok (b, j)) ∨ destuff m n i = .error (.raised .truncatedFrame) := by
  by_cases hlt : n ≤ i
  · exact .inr (destuff_past hlt)
  · obtain ⟨b, hb⟩ := Option.ne_none_iff_exists'.mp (hv i (by omega))
    by_cases hesc : b = 0x7D#8
    · subst hesc
      by_cases hl : i + 1 = n
      · exact .inr (destuff_lone hl hb)
      · obtain ⟨x, hx⟩ := Option.ne_none_iff_exists'.mp (hv (i + 1) (by omega))
        refine .inl ⟨x ^^^ 0x20#8, i + 2, destuff_field (u := [0x7D#8, x]) ?_ (.inr ⟨x, rfl, rfl⟩) ?_⟩
        · rw [Memory.hasAt_cons, Memory.hasAt_singleton]
          exact ⟨hb, hx⟩
        · simp only [List.length_cons, List.length_nil]
          omega
    · exact .inl ⟨b, i + 1, destuff_field (u := [b]) (Memory.hasAt_singleton.mpr hb) (.inl ⟨hesc, rfl⟩)
          (by simp; omega)⟩

end Sys2Proof.Machine
end

