-- ==== Sys2Proof/Laws/Decoder.lean ====
section
/-! SUPPORT. The steps of the frame decoder: what each answers on fields in `RAW`, and what its answers mean. -/

namespace Sys2Proof.Machine

@[simp] theorem txHeaderSum_eq (a c : Byte) : txHeaderSum a c = a + c := by
  apply BitVec.eq_of_toNat_eq
  simp [txHeaderSum, mod256]

@[simp] theorem Header.sum_eq (h : Header) : h.sum = h.addr + h.cmd + h.status := by
  apply BitVec.eq_of_toNat_eq
  simp [Header.sum, mod256]

/-- A field that is missing or a lone escape at the end is TruncatedFrame. -/
theorem destuff_tail {m : Memory} {n i : Nat} {tail : List Byte} (ht : tail = [] ∨ tail = [0x7D#8])
    (hm : m.HasAt i tail) (hn : n = i + tail.length) : destuff m n i = .error (.raised .truncatedFrame) := by
  rcases ht with rfl | rfl
  · exact destuff_past (by simp at hn; omega)
  · exact destuff_lone (by simp at hn; omega) (Memory.hasAt_singleton.mp hm)

/-- A field whose next cell holds ⊥, below `n`, is the fault that names the cell (R41). -/
theorem destuff_fault {m : Memory} {n i : Nat} {tail : List Byte} (ht : tail = [] ∨ tail = [0x7D#8])
    (hm : m.HasAt i tail) (hn : i + tail.length < n) (hbot : m.read (i + tail.length) = none) :
    destuff m n i = .error (.fault (.noValue (.cell .rawSpace (i + tail.length)))) := by
  have h1 : ¬ n ≤ i := by omega
  rcases ht with rfl | rfl
  · simp only [List.length_nil, Nat.add_zero] at hbot ⊢
    simp [destuff, h1, readRaw, hbot]
  · simp only [List.length_cons, List.length_nil, Nat.zero_add] at hn hbot ⊢
    have h2 : ¬ i + 1 = n := by omega
    simp [destuff, h1, h2, readRaw_some (Memory.hasAt_singleton.mp hm), Config.ESC]
    simp [readRaw, hbot]

/-! ### HEADER -/

theorem headerFields_ok {m : Memory} {n i : Nat} {w : List Byte} {a c st d : Byte} (hw : FieldsOf w [a, c, st, d])
    (hm : m.HasAt i w) (hn : i + w.length ≤ n) : headerFields m n i = .ok (⟨a, c, st, d⟩, i + w.length) := by
  obtain ⟨u1, v1, rfl, h1, u2, v2, rfl, h2, u3, v3, rfl, h3, hd⟩ := hw
  rw [fieldsOf_singleton] at hd
  simp only [Memory.hasAt_append] at hm
  obtain ⟨m1, m2, m3, m4⟩ := hm
  simp only [List.length_append] at hn ⊢
  simp [headerFields, destuff_field (n := n) m1 h1 (by omega), destuff_field (n := n) m2 h2 (by omega),
    destuff_field (n := n) m3 h3 (by omega), destuff_field (n := n) m4 hd (by omega)]
  omega

/-- HEADER stops where the first field that is not read stops. -/
theorem headerFields_stops {m : Memory} {n i : Nat} {w bs : List Byte} {e : Stop} (hw : FieldsOf w bs)
    (hb : bs.length < 4) (hm : m.HasAt i w) (hn : i + w.length ≤ n) (hd : destuff m n (i + w.length) = .error e) :
    headerFields m n i = .error e := by
  match bs, hw, hb with
  | [], hw, _ =>
    obtain rfl : w = [] := hw
    simp only [List.length_nil, Nat.add_zero] at hd
    simp [headerFields, hd]
  | [b1], hw, _ =>
    rw [fieldsOf_singleton] at hw
    simp [headerFields, destuff_field (n := n) hm hw hn, hd]
  | [b1, b2], ⟨u1, v1, e, h1, h2⟩, _ =>
    subst e
    rw [fieldsOf_singleton] at h2
    simp only [Memory.hasAt_append] at hm
    simp only [List.length_append] at hn hd
    rw [← Nat.add_assoc] at hd
    simp [headerFields, destuff_field (n := n) hm.1 h1 (by omega), destuff_field (n := n) hm.2 h2 (by omega), hd]
  | [b1, b2, b3], ⟨u1, v1, e, h1, u2, v2, e2, h2, h3⟩, _ =>
    subst e2 e
    rw [fieldsOf_singleton] at h3
    simp only [Memory.hasAt_append] at hm
    simp only [List.length_append] at hn hd
    rw [← Nat.add_assoc, ← Nat.add_assoc] at hd
    simp [headerFields, destuff_field (n := n) hm.1 h1 (by omega), destuff_field (n := n) hm.2.1 h2 (by omega),
      destuff_field (n := n) hm.2.2 h3 (by omega), hd]

/-- A header field that is missing or a lone escape at the end is TruncatedFrame (R175). -/
theorem headerFields_truncated {m : Memory} {n i : Nat} {w bs tail : List Byte} (hw : FieldsOf w bs)
    (hb : bs.length < 4) (ht : tail = [] ∨ tail = [0x7D#8]) (hm : m.HasAt i (w ++ tail))
    (hn : n = i + w.length + tail.length) : headerFields m n i = .error (.raised .truncatedFrame) := by
  rw [Memory.hasAt_append] at hm
  exact headerFields_stops hw hb hm.1 (by omega) (destuff_tail ht hm.2 hn)

theorem headerFields_eq_ok {m : Memory} {n i j : Nat} {h : Header} (e : headerFields m n i = .ok (h, j)) :
    ∃ w, FieldsOf w [h.addr, h.cmd, h.status, h.dlen] ∧ m.HasAt i w ∧ j = i + w.length ∧ j ≤ n := by
  simp only [headerFields, bind_eq_ok, Except.ok.injEq, Prod.mk.injEq] at e
  obtain ⟨⟨a, j1⟩, e1, ⟨c, j2⟩, e2, ⟨st, j3⟩, e3, ⟨d, j4⟩, e4, rfl, rfl⟩ := e
  obtain ⟨u1, f1, m1, rfl, l1⟩ := destuff_eq_ok e1
  obtain ⟨u2, f2, m2, rfl, l2⟩ := destuff_eq_ok e2
  obtain ⟨u3, f3, m3, rfl, l3⟩ := destuff_eq_ok e3
  obtain ⟨u4, f4, m4, rfl, l4⟩ := destuff_eq_ok e4
  refine ⟨u1 ++ (u2 ++ (u3 ++ u4)), ⟨u1, _, rfl, f1, u2, _, rfl, f2, u3, _, rfl, f3, fieldsOf_singleton.mpr f4⟩, ?_,
      ?_, l4⟩
  · simp only [Memory.hasAt_append]
    exact ⟨m1, m2, m3, m4⟩
  · simp only [List.length_append]
    omega

/-! ### PAYLOAD -/

/-- Fields in the buffer are obtained one by one while more may be obtained. -/
theorem payloadFields_run {m : Memory} {n i k : Nat} {w p acc : List Byte} (hw : FieldsOf w p) (hm : m.HasAt i w)
    (hn : i + w.length ≤ n) :
    payloadFields m n (p.length + k) i acc = payloadFields m n k (i + w.length) (acc ++ p) := by
  induction p generalizing i w acc with
  | nil =>
    obtain rfl : w = [] := hw
    simp
  | cons b p ih =>
    obtain ⟨u, v, rfl, hu, hv⟩ := hw
    rw [Memory.hasAt_append] at hm
    simp only [List.length_append] at hn ⊢
    have hlt : i < n := by have := hu.length_pos; omega
    have e : (b :: p).length + k = (p.length + k) + 1 := by simp; omega
    rw [e, payloadFields, if_pos hlt, destuff_field hm.1 hu (by omega)]
    simp only [ok_bind]
    rw [ih hv hm.2 (by omega)]
    simp [Nat.add_assoc]

@[simp] theorem payloadFields_zero (m : Memory) (n i : Nat) (acc : List Byte) :
    payloadFields m n 0 i acc = .ok (acc, i) := rfl

theorem payloadFields_end {m : Memory} {n i : Nat} (k : Nat) (acc : List Byte) (h : n ≤ i) :
    payloadFields m n k i acc = .ok (acc, i) := by
  cases k with
  | zero => rfl
  | succ k => simp [payloadFields, h]

theorem payloadFields_eq_ok {m : Memory} {n k i j : Nat} {acc pay : List Byte}
    (e : payloadFields m n k i acc = .ok (pay, j)) :
    ∃ w p, pay = acc ++ p ∧ FieldsOf w p ∧ m.HasAt i w ∧ j = i + w.length ∧ p.length ≤ k ∧ (j ≤ n ∨ w = []) ∧
      (p.length = k ∨ n ≤ j) := by
  induction k generalizing i acc with
  | zero =>
    simp only [payloadFields_zero, Except.ok.injEq, Prod.mk.injEq] at e
    obtain ⟨rfl, rfl⟩ := e
    exact ⟨[], [], by simp, rfl, Memory.hasAt_nil _ _, rfl, by simp, .inr rfl, .inl rfl⟩
  | succ k ih =>
    rw [payloadFields] at e
    split at e
    · rename_i hlt
      simp only [bind_eq_ok] at e
      obtain ⟨⟨b, j1⟩, e1, e2⟩ := e
      obtain ⟨u, f1, m1, rfl, l1⟩ := destuff_eq_ok e1
      obtain ⟨w, p, rfl, fw, mw, rfl, hl, hb, hk⟩ := ih e2
      refine ⟨u ++ w, b :: p, by simp, ⟨u, w, rfl, f1, fw⟩, Memory.hasAt_append.mpr ⟨m1, mw⟩, by simp [Nat.add_assoc],
        by simpa using hl, ?_, by simpa using hk⟩
      rcases hb with hb | rfl
      · exact .inl hb
      · exact .inl (by simpa using l1)
    · rename_i hlt
      simp only [Except.ok.injEq, Prod.mk.injEq] at e
      obtain ⟨rfl, rfl⟩ := e
      exact ⟨[], [], by simp, rfl, Memory.hasAt_nil _ _, rfl, by simp, .inr rfl, .inr (by omega)⟩

theorem stopMarker_ok {m : Memory} {n i : Nat} (hn : i < n) (hm : m.read i = some 0x7E#8) : stopMarker m n i = .ok ()
    := by
  have h1 : ¬ n ≤ i := by omega
  simp [stopMarker, h1, readRaw_some hm, Config.FLAG]

/-- A stop cell that holds ⊥ is the fault that names it (R41). -/
theorem stopMarker_fault {m : Memory} {n i : Nat} (hn : i < n) (hbot : m.read i = none) :
    stopMarker m n i = .error (.fault (.noValue (.cell .rawSpace i))) := by
  have h1 : ¬ n ≤ i := by omega
  simp [stopMarker, h1, readRaw, hbot]

theorem stopMarker_eq_ok {m : Memory} {n i : Nat} (h : stopMarker m n i = .ok ()) : i < n ∧ m.read i = some 0x7E#8 := by
  unfold stopMarker at h
  split at h
  · simp at h
  · rename_i hlt
    simp only [bind_eq_ok, readRaw_eq_ok] at h
    obtain ⟨b, hb, h⟩ := h
    split at h
    · rename_i hf
      subst hf
      exact ⟨by omega, hb⟩
    · simp at h

/-! ### The whole frame -/

/-- Past the length gate and the start marker, DECODE goes on with the header at cell 1 (R173, R174). -/
theorem decodeFrame_start {m : Memory} {n : Nat} {maxlen : Byte} (hn : 7 ≤ n) (h0 : m.read 0 = some 0x7E#8) :
    decodeFrame m n maxlen = (do
      let (h, cur) ← headerFields m n 1
      let (pay, cur) ← payloadFields m n (min h.dlen.toNat maxlen.toNat) cur []
      if pay.length < h.dlen.toNat then .error (.raised .incompleteResponse)
      else do
        let (crc, cur) ← destuff m n cur
        if crc ≠ h.expected pay then .error (.raised .checksumMismatch)
        else do
          stopMarker m n cur
          .ok (h, pay)) := by
  have h1 : ¬ n < Config.MIN_RX_FRAME := by simp only [Config.MIN_RX_FRAME]; omega
  simp [decodeFrame, h1, readRaw_some h0, Config.FLAG]

/-- With the header in the buffer, DECODE goes on with the payload after it (R175). -/
theorem decodeFrame_header {m : Memory} {n : Nat} {maxlen a c st d : Byte} {w : List Byte} (hn : 7 ≤ n)
    (h0 : m.read 0 = some 0x7E#8) (hw : FieldsOf w [a, c, st, d]) (hm : m.HasAt 1 w) (hl : 1 + w.length ≤ n) :
    decodeFrame m n maxlen = (do
      let (pay, cur) ← payloadFields m n (min d.toNat maxlen.toNat) (1 + w.length) []
      if pay.length < d.toNat then .error (.raised .incompleteResponse)
      else do
        let (crc, cur) ← destuff m n cur
        if crc ≠ cksum (a + c + st) d pay then .error (.raised .checksumMismatch)
        else do
          stopMarker m n cur
          .ok (⟨a, c, st, d⟩, pay)) := by
  rw [decodeFrame_start hn h0, headerFields_ok hw hm hl]
  simp [Header.expected]

/-- With the header and all D payload bytes in the buffer, DECODE goes on with the checksum (R176, R177). -/
theorem decodeFrame_payload {m : Memory} {n : Nat} {maxlen a c st d : Byte} {w p : List Byte} (hn : 7 ≤ n)
    (h0 : m.read 0 = some 0x7E#8) (hw : FieldsOf w ([a, c, st, d] ++ p)) (hm : m.HasAt 1 w) (hl : 1 + w.length ≤ n)
    (hd : p.length = d.toNat) (hx : p.length ≤ maxlen.toNat) :
    decodeFrame m n maxlen = (do
      let (crc, cur) ← destuff m n (1 + w.length)
      if crc ≠ cksum (a + c + st) d p then .error (.raised .checksumMismatch)
      else do
        stopMarker m n cur
        .ok (⟨a, c, st, d⟩, p)) := by
  obtain ⟨u, v, rfl, hu, hv⟩ := hw.split
  rw [Memory.hasAt_append] at hm
  simp only [List.length_append] at hl
  rw [decodeFrame_header hn h0 hu hm.1 (by omega)]
  have e : min d.toNat maxlen.toNat = p.length + 0 := by omega
  have e2 : ¬ p.length < d.toNat := by omega
  rw [e, payloadFields_run hv hm.2 (by omega)]
  simp [e2, Nat.add_assoc]

/-- What a successful DECODE has read (R171). -/
theorem decodeFrame_eq_ok {m : Memory} {n : Nat} {maxlen : Byte} {h : Header} {pay : List Byte}
    (e : decodeFrame m n maxlen = .ok (h, pay)) :
    ∃ w, FieldsOf w ([h.addr, h.cmd, h.status, h.dlen] ++ pay ++ [h.expected pay]) ∧ pay.length = h.dlen.toNat ∧
      pay.length ≤ maxlen.toNat ∧ m.HasAt 0 (0x7E#8 :: w ++ [0x7E#8]) ∧ w.length + 2 ≤ n := by
  unfold decodeFrame at e
  split at e
  · simp at e
  · rename_i hn
    simp only [bind_eq_ok, readRaw_eq_ok] at e
    obtain ⟨b0, hb0, e⟩ := e
    split at e
    · simp at e
    · rename_i hf
      simp only [ne_eq, Decidable.not_not] at hf
      subst hf
      simp only [bind_eq_ok] at e
      obtain ⟨⟨h', j1⟩, e1, ⟨pay', j2⟩, e2, e⟩ := e
      obtain ⟨w1, f1, m1, rfl, l1⟩ := headerFields_eq_ok e1
      obtain ⟨w2, p, rfl, f2, m2, rfl, hk, -, -⟩ := payloadFields_eq_ok e2
      simp only at e hk
      split at e
      · simp at e
      · rename_i hlen
        simp only [bind_eq_ok] at e
        obtain ⟨⟨crc, j3⟩, e3, e⟩ := e
        obtain ⟨w3, f3, m3, rfl, l3⟩ := destuff_eq_ok e3
        simp only at e
        split at e
        · simp at e
        · rename_i hcrc
          simp only [ne_eq, Decidable.not_not] at hcrc
          simp only [bind_eq_ok, Except.ok.injEq, Prod.mk.injEq] at e
          obtain ⟨⟨⟩, e4, rfl, rfl⟩ := e
          obtain ⟨hlt, hstop⟩ := stopMarker_eq_ok e4
          refine ⟨w1 ++ w2 ++ w3, (f1.append f2).append (fieldsOf_singleton.mpr (hcrc ▸ f3)), by omega, by omega, ?_,
              ?_⟩
          · rw [List.cons_append, Memory.hasAt_cons, Memory.hasAt_append, Memory.hasAt_append, Memory.hasAt_append,
              Memory.hasAt_singleton]
            refine ⟨hb0, ⟨⟨m1, m2⟩, ?_⟩, ?_⟩
            · simpa [Nat.add_assoc] using m3
            · simpa [Nat.add_assoc] using hstop
          · simp only [List.length_append]
            omega

end Sys2Proof.Machine
end

