-- ==== Sys2Proof/Laws/Ends.lean ====
section
/-! SUPPORT. How an operation ends, in the terms of Safety.lean, and each operation with its operands read. -/

namespace Sys2Proof.Machine

theorem endsWith_ok (s : State) (r : ResRegs) : EndsWith (conclude s (.ok r)) s { r with rstate := 1#2 } :=
  ⟨finish r s, rfl, rfl, rfl, rfl⟩

theorem endsInError_raised (s : State) (e : ErrKind) : EndsInError (conclude s (.error (.raised e))) s e.code :=
  ⟨raise e s, rfl, rfl, rfl, rfl⟩

theorem endsWithOut_ok (s : State) (o : List Byte) : EndsWithOut (conclude s (.ok (outResult o))) s o :=
  ⟨Memory.ofBytes o, fun k => Memory.read_ofBytes o k, finish (outResult o) s, rfl, rfl, rfl, rfl⟩

theorem endsWithFrame_ok (s : State) (h : Header) (p : List Byte) :
    EndsWithFrame (conclude s (.ok (frameResult h p))) s h.addr h.cmd h.status h.dlen p :=
  ⟨Memory.ofBytes p, fun k => Memory.read_ofBytes p k, finish (frameResult h p) s, rfl, rfl, rfl, rfl⟩

theorem exec_cksum_of {s : State} {p : List Byte} {hs dl : Byte} (hp : s.Input p) (h1 : s.req.hsum = some hs)
    (h2 : s.req.dlen = some dl) :
    exec .cksum s = conclude s (.ok { ResRegs.blank with rbyte := some (cksum hs dl p) }) := by
  simp [exec, execCksum, hp.read.2.1, hp.read.2.2, h1, h2]

theorem exec_stuff_of {s : State} {p : List Byte} (hp : s.Input p) :
    exec .stuff s = conclude s (.ok (outResult (stuff p))) := by
  simp [exec, execStuff, hp.read.2.1, hp.read.2.2]

theorem exec_destuff_of {s : State} {n : Nat} {cur : BitVec 10} (hn : n ≤ 522)
    (h1 : s.req.rawlen = some (BitVec.ofNat 10 n)) (h2 : s.req.cur = some cur) :
    exec .destuff s = conclude s (do
      let (b, nx) ← destuff s.req.rawBuf n cur.toNat
      .ok { ResRegs.blank with rbyte := some b, rnext := some (BitVec.ofNat 10 nx) }) := by
  simp [exec, execDestuff, rawLength_ofNat h1 hn, h2]

/-- The bytes of a successful ENCODE are the transmit frame (R75, R153). -/
theorem encodeFrame_ok {a c : Byte} {p : List Byte} (hp : p.length ≤ 255) :
    encodeFrame a c p = .ok (transmitFrame a c p) := by
  have h : ¬ p.length > Config.MAX_PAYLOAD := by simp only [Config.MAX_PAYLOAD]; omega
  simp [encodeFrame, h, transmitFrame, Config.FLAG, stuff_append]

theorem exec_encode_of {s : State} {p : List Byte} {a c : Byte} (hp : s.Input p) (h1 : s.req.addr = some a)
    (h2 : s.req.cmd = some c) : exec .encode s = conclude s (.ok (outResult (transmitFrame a c p))) := by
  have h : ¬ p.length > Config.MAX_PAYLOAD := by simp only [Config.MAX_PAYLOAD]; have := hp.1; omega
  simp [exec, execEncode, hp.read.1, hp.read.2.2, h, h1, h2, encodeFrame_ok hp.1]

theorem exec_encode_above {s : State} {n : BitVec 16} (h1 : s.req.inlen = some n) (hn : 255 < n.toNat) :
    exec .encode s = conclude s (.error (.raised .payloadTooLarge)) := by
  have h : n.toNat > Config.MAX_PAYLOAD := by simp only [Config.MAX_PAYLOAD]; omega
  simp [exec, execEncode, inputLength_some h1, h]

theorem exec_decode_of {s : State} {n : Nat} {m : Byte} (hn : n ≤ 522)
    (h1 : s.req.rawlen = some (BitVec.ofNat 10 n)) (h2 : s.req.maxlen = some m) :
    exec .decode s = conclude s (do
      let (h, pay) ← decodeFrame s.req.rawBuf n m
      .ok (frameResult h pay)) := by
  simp [exec, execDecode, rawLength_ofNat h1 hn, h2]

/-- A DECODE whose frame function stops at a fault is that fault. -/
theorem exec_decode_fault {s : State} {n : Nat} {m : Byte} {f : Fault} (hn : n ≤ 522)
    (h1 : s.req.rawlen = some (BitVec.ofNat 10 n)) (h2 : s.req.maxlen = some m)
    (hd : decodeFrame s.req.rawBuf n m = .error (.fault f)) : exec .decode s = .fault f := by
  rw [exec_decode_of hn h1 h2, hd]
  rfl

/-- A DECODE whose frame function raises an error ends in that error. -/
theorem exec_decode_raised {s : State} {n : Nat} {m : Byte} {e : ErrKind} (hn : n ≤ 522)
    (h1 : s.req.rawlen = some (BitVec.ofNat 10 n)) (h2 : s.req.maxlen = some m)
    (hd : decodeFrame s.req.rawBuf n m = .error (.raised e)) : EndsInError (exec .decode s) s e.code := by
  rw [exec_decode_of hn h1 h2, hd]
  exact endsInError_raised s e

/-- The checksum as a number (R101). -/
theorem cksum_toNat (hs dl : Byte) (p : List Byte) : (cksum hs dl p).toNat = 255 - (hs.toNat + dl.toNat +
    (p.map BitVec.toNat).sum) % 256 := by
  simp only [cksum, not8, mod256, BitVec.toNat_sub, BitVec.toNat_ofNat]
  omega

/-- `stuff` written as one `flatMap` (R121, R122). -/
theorem flatMap_eq_stuff (p : List Byte) : p.flatMap (fun b =>
      if b = 0x11#8 ∨ b = 0x13#8 ∨ b = 0x7D#8 ∨ b = 0x7E#8 then [0x7D#8, b ^^^ 0x20#8] else [b]) = stuff p := by
  induction p with
  | nil => rfl
  | cons b p ih =>
    rw [List.flatMap_cons, ih, stuff_cons]
    congr 1
    split
    · rename_i h; rw [stuffByte_reserved ((isReserved_iff b).mpr h)]
    · rename_i h; rw [stuffByte_plain (by rw [← Bool.not_eq_true, isReserved_iff]; exact h)]

/-- What a STUFF that ends has read and written (R131). -/
theorem exec_stuff_next {s t : State} (h : exec .stuff s = .next t) : ∃ p, s.Input p ∧ t = finish (outResult
    (stuff p)) s := by
  simp only [exec, execStuff] at h
  rcases conclude_next h with ⟨r, hr, rfl⟩ | ⟨k, hk, rfl⟩
  · simp only [bind_eq_ok, Except.ok.injEq] at hr
    obtain ⟨n, hn, p, hp, rfl⟩ := hr
    obtain ⟨h1, v, h2, rfl⟩ := boundedInputLength_eq_ok hn
    obtain ⟨hl, hc⟩ := readInput_eq_ok hp
    exact ⟨p, ⟨by omega, by rw [hl]; simpa using h2, fun k hk => by simpa using hc k (by omega)⟩, rfl⟩
  · simp only [bind_eq_error] at hk
    rcases hk with hk | ⟨n, -, hk | ⟨p, -, hk⟩⟩
    · exact absurd hk (boundedInputLength_not_raised _ _)
    · exact absurd hk (readInput_not_raised _ _ _ _)
    · simp at hk

/-- What an ENCODE that ends has read and written, or the error it raised (R151, R152). -/
theorem exec_encode_next {s t : State} (h : exec .encode s = .next t) :
    (∃ p a c, s.Input p ∧ s.req.addr = some a ∧ s.req.cmd = some c ∧ t = finish (outResult (transmitFrame a c p)) s) ∨
    (∃ n, s.req.inlen = some n ∧ 255 < n.toNat ∧ t = raise .payloadTooLarge s) := by
  cases hi : s.req.inlen with
  | none =>
    simp [exec, execEncode, inputLength, hi] at h
  | some n =>
    by_cases hn : 255 < n.toNat
    · rw [exec_encode_above hi hn] at h
      exact .inr ⟨n, rfl, hn, by simpa using h.symm⟩
    · left
      simp only [exec, execEncode] at h
      have hmax : ¬ n.toNat > Config.MAX_PAYLOAD := by simp only [Config.MAX_PAYLOAD]; omega
      rw [inputLength_some hi] at h
      simp only [ok_bind, if_neg hmax] at h
      rcases conclude_next h with ⟨r, hr, rfl⟩ | ⟨k, hk, rfl⟩
      · simp only [bind_eq_ok, operand_eq_ok, Except.ok.injEq] at hr
        obtain ⟨p, hp, a, ha, c, hc, f, hf, rfl⟩ := hr
        obtain ⟨hl, hcell⟩ := readInput_eq_ok hp
        rw [encodeFrame_ok (by omega)] at hf
        simp only [Except.ok.injEq] at hf
        subst hf
        exact ⟨p, a, c, ⟨by omega, by rw [hl, hi]; simp, fun k hk => by simpa using hcell k (by omega)⟩, ha, hc, rfl⟩
      · simp only [bind_eq_error] at hk
        rcases hk with hk | ⟨p, hp, hk | ⟨a, -, hk | ⟨c, -, hk | ⟨f, -, hk⟩⟩⟩⟩
        · exact absurd hk (readInput_not_raised _ _ _ _)
        · exact absurd hk (operand_not_raised _ _ _)
        · exact absurd hk (operand_not_raised _ _ _)
        · rw [encodeFrame_ok (by have := (readInput_eq_ok hp).1; omega)] at hk
          simp at hk
        · simp at hk

/-- The transmit frame as markers around one stuffed sequence (R153). -/
theorem transmitFrame_eq (a c : Byte) (p : List Byte) : transmitFrame a c p = [0x7E#8] ++ stuff ([a, c,
    BitVec.ofNat 8 p.length] ++ p ++ [cksum (a + c) (BitVec.ofNat 8 p.length) p]) ++ [0x7E#8] := by
  simp [transmitFrame, stuff_append]

/-- The size of a transmit frame (R157). -/
theorem transmitFrame_length (a c : Byte) (p : List Byte) : (transmitFrame a c p).length = 6 + p.length +
        reservedCount ([a, c, BitVec.ofNat 8 p.length] ++ p ++ [cksum (a + c) (BitVec.ofNat 8 p.length) p]) := by
  rw [transmitFrame_eq]
  simp only [List.length_append, stuff_length, List.length_cons, List.length_nil]
  omega

/-- No transmit frame is longer than 519 bytes (R77, R157). -/
theorem transmitFrame_length_le (a c : Byte) (p : List Byte) (hp : p.length ≤ 255) :
    (transmitFrame a c p).length ≤ 519 := by
  rw [transmitFrame_length]
  simp only [reservedCount_append]
  have h1 := reservedCount_le p
  have h2 := reservedCount_le [cksum (a + c) (BitVec.ofNat 8 p.length) p]
  have h3 : reservedCount [a, c, BitVec.ofNat 8 p.length] = reservedCount [a, c] + reservedCount
      [BitVec.ofNat 8 p.length] := by
    rw [← reservedCount_append]; rfl
  have h4 := reservedCount_le [a, c]
  have h5 := reservedCount_le [BitVec.ofNat 8 p.length]
  simp only [List.length_cons, List.length_nil] at h2 h4 h5
  by_cases h : p.length = 255
  · have : reservedCount [BitVec.ofNat 8 p.length] = 0 := by rw [h]; rfl
    omega
  · omega

end Sys2Proof.Machine
end

