-- ==== Sys2Proof/Laws/Wire.lean ====
section
/-! SUPPORT. The wire symbols: what the decoder reads at the cursor, what each symbol does, and one step inside an
operation. -/

namespace Sys2Proof.Machine

/-- An escape pair decodes to a well-formed instruction whose encoding is the pair (R71, R73). -/
theorem decodeEscape_spec (x : Byte) :
    (decodeEscape x).wf = true ∧ encode (decodeEscape x) = .wire [0x7D#8, x] := by
  unfold decodeEscape
  split_ifs <;> subst_vars <;> first | exact ⟨rfl, rfl⟩ | simp_all [Instr.wf, canonicalSeconds, encode]

theorem op_cases : ∀ v : BitVec 3, v = 0#3 ∨ v = 1#3 ∨ v = 2#3 ∨ v = 3#3 ∨ v = 4#3 ∨ v = 5#3 ∨ v = 6#3 ∨ v = 7#3 :=
    by decide

/-- The reserved values of `OP` decode to nothing (R81). -/
theorem decodeOp_reserved : ∀ v : BitVec 3, 5 ≤ v.toNat → decodeOp v = .error (.reservedOp v) := by
  intro v h
  rcases op_cases v with rfl | rfl | rfl | rfl | rfl | rfl | rfl | rfl <;> first | rfl | (simp at h)

theorem act_of_between {a : HostAction} {s : State} (h : s.walk = none) : act a s = actBetween a s := by simp [act, h]

/-- The bytes at the cursor that decode to a symbol are the bytes the phase looks at (R72). -/
theorem symbolBytes_of {m : Memory} {n i : Nat} {pos : Position} {bs : List Byte} {x : Instr}
    (hm : m.HasAt i bs) (hl : i + bs.length ≤ n) (hd : decodeWire pos bs = .ok (x, [])) : symbolBytes m n i pos =
        .ok bs := by
  match bs, pos, hd with
  | [], pos, hd => simp [decodeWire] at hd
  | b :: rest, .marker, hd =>
    simp only [decodeWire] at hd
    split at hd
    · simp only [Except.ok.injEq, Prod.mk.injEq] at hd
      obtain ⟨-, rfl⟩ := hd
      simp [symbolBytes, readRaw_some (Memory.hasAt_singleton.mp hm)]
    · simp at hd
  | b :: rest, .field, hd =>
    simp only [decodeWire] at hd
    split at hd
    · rename_i hb
      match rest, hd with
      | [], hd => simp at hd
      | x :: rest', hd =>
        simp only [Except.ok.injEq, Prod.mk.injEq] at hd
        obtain ⟨-, rfl⟩ := hd
        rw [Memory.hasAt_cons, Memory.hasAt_singleton] at hm
        simp only [List.length_cons, List.length_nil] at hl
        simp [symbolBytes, readRaw_some hm.1, readRaw_some hm.2, hb, show i + 1 ≠ n by omega]
    · rename_i hb
      simp only [Except.ok.injEq, Prod.mk.injEq] at hd
      obtain ⟨-, rfl⟩ := hd
      simp [symbolBytes, readRaw_some (Memory.hasAt_singleton.mp hm), hb]

theorem decodeWire_nonempty {pos : Position} {bs : List Byte} {x : Instr} {r : List Byte} (hd : decodeWire pos bs =
    .ok (x, r)) : 0 < bs.length := by
  cases bs with
  | nil => simp [decodeWire] at hd
  | cons => simp

/-- Every wire symbol is `takeSymbol` of its first byte, its logical byte and its width (R125). -/
theorem exec_symbol {i : Instr} {bs : List Byte} {b : Byte} (hi : i.wf = true) (he : encode i = .wire bs) (hf :
    IsField bs b) (s : State) :
    ∃ first, bs.head? = some first ∧ exec i s = takeSymbol first b (BitVec.ofNat 10 bs.length) s := by
  cases i <;> simp only [encode, Code.wire.injEq, reduceCtorEq] at he <;> subst he
  case literal c =>
    rcases hf with ⟨h1, h2⟩ | ⟨x, h, -⟩
    · simp only [List.cons.injEq, and_true] at h2
      subst h2
      exact ⟨c, rfl, rfl⟩
    · simp at h
  case flag =>
    rcases hf with ⟨h1, h2⟩ | ⟨x, h, -⟩
    · simp only [List.cons.injEq, and_true] at h2
      subst h2
      exact ⟨_, rfl, rfl⟩
    · simp at h
  all_goals
    rcases hf with ⟨h1, h2⟩ | ⟨x, h, h'⟩
    · simp at h2
    · simp only [List.cons.injEq, and_true, true_and] at h
      subst h h'
      exact ⟨_, rfl, rfl⟩

/-- At a field position below `n` the decoder and the destuffer agree: a symbol, a truncated escape, or the same fault
(R72, R125). -/
theorem symbolBytes_destuff {m : Memory} {n i : Nat} (hi : i < n) {pos : Position} (hpos : pos = .field) :
    (∃ bs x b, symbolBytes m n i pos = .ok bs ∧ decodeWire pos bs = .ok (x, []) ∧ encode x = .wire bs ∧ x.wf = true ∧
        IsField bs b ∧ destuff m n i = .ok (b, i + bs.length) ∧ i + bs.length ≤ n) ∨
    (∃ bs de, symbolBytes m n i pos = .ok bs ∧ decodeWire pos bs = .error de ∧ destuff m n i = .error
        (.raised .truncatedFrame)) ∨
    (∃ f, symbolBytes m n i pos = .error (.fault f) ∧ destuff m n i = .error (.fault f)) := by
  subst hpos
  have h1 : ¬ n ≤ i := by omega
  cases hb : m.read i with
  | none =>
    right; right
    exact ⟨_, by simp [symbolBytes, readRaw, hb]; rfl, by simp [destuff, h1, readRaw, hb]⟩
  | some b =>
    by_cases hesc : b = 0x7D#8
    · subst hesc
      by_cases hl : i + 1 = n
      · right; left
        refine ⟨[0x7D#8], .truncatedEscape, by simp [symbolBytes, readRaw_some hb, hl], rfl, destuff_lone hl hb⟩
      · cases hx : m.read (i+1) with
        | none =>
          right; right
          have hr : readRaw m (i + 1) = .error (.fault (.noValue (.cell .rawSpace (i + 1)))) := by simp [readRaw, hx]
          exact ⟨_, by simp [symbolBytes, readRaw_some hb, hl, Config.ESC, hr]; rfl,
            by simp [destuff, h1, readRaw_some hb, Config.ESC, hl, hr]⟩
        | some x =>
          left
          have hd : decodeWire .field [0x7D#8, x] = .ok (decodeEscape x, []) := rfl
          obtain ⟨hwf, hu⟩ := decodeEscape_spec x
          have hf : IsField [0x7D#8, x] (x ^^^ 0x20#8) := .inr ⟨x, rfl, rfl⟩
          refine ⟨[0x7D#8, x], decodeEscape x, x ^^^ 0x20#8, by simp [symbolBytes, readRaw_some hb, readRaw_some hx,
              Config.ESC, hl], hd, hu, hwf, hf, destuff_field (Memory.hasAt_cons.mpr ⟨hb,
              Memory.hasAt_singleton.mpr hx⟩) hf (by simp; omega), by simp; omega⟩
    · left
      have hd : decodeWire .field [b] = .ok (.literal b, []) := by simp [decodeWire, Config.ESC, hesc]
      have hf : IsField [b] b := .inl ⟨hesc, rfl⟩
      refine ⟨[b], .literal b, b, by simp [symbolBytes, readRaw_some hb, Config.ESC, hesc], hd, rfl, by simpa
          [Instr.wf, Config.ESC] using hesc, hf, destuff_field (Memory.hasAt_singleton.mpr hb) hf (by simp; omega),
          by simp; omega⟩

/-- One step inside an operation at a field position. -/
theorem step_field {t : State} {w : Walk} {n : Nat} (hw : t.walk = some w) (hp : w.position = .field) (hn :
    rawLength t = .ok n)
    (hc : w.cursor.toNat < n) :
    (∃ b first, ∃ u : Nat, destuff t.req.rawBuf n w.cursor.toNat = .ok (b, w.cursor.toNat + u) ∧
        w.cursor.toNat + u ≤ n ∧
      step t = takeSymbol first b (BitVec.ofNat 10 u) t) ∨
    (∃ e, destuff t.req.rawBuf n w.cursor.toNat = .error e ∧ step t = halt t e) := by
  have hm : w.malformedError = .truncatedFrame := by cases w <;> simp [Walk.position] at hp <;> rfl
  have h1 : ¬ n ≤ w.cursor.toNat := by omega
  rcases symbolBytes_destuff (m := t.req.rawBuf) hc hp with ⟨bs, x, b, hs, hd, he, hwf, hf, hde, hle⟩ | ⟨bs, de, hs,
      hd, hde⟩ | ⟨f, hs, hde⟩
  · left
    obtain ⟨first, -, hx⟩ := exec_symbol hwf he hf t
    refine ⟨b, first, bs.length, hde, hle, ?_⟩
    rw [← hx]
    simp [step, fetch, hw, fetchSymbol, hn, h1, hs, hd]
  · right
    refine ⟨_, hde, ?_⟩
    simp [step, fetch, hw, fetchSymbol, hn, h1, hs, hd, hm]
  · right
    refine ⟨_, hde, ?_⟩
    simp [step, fetch, hw, fetchSymbol, hn, h1, hs]

/-- One step inside an operation with the cursor at or beyond `RAWLEN`. -/
theorem step_end {t : State} {w : Walk} {n : Nat} (hw : t.walk = some w) (hn : rawLength t = .ok n)
    (hc : n ≤ w.cursor.toNat) : step t = halt t (.raised w.endError) := by
  simp [step, fetch, hw, fetchSymbol, hn, hc]

/-- One step inside an operation at a marker position (R174, R181). -/
theorem step_marker {t : State} {w : Walk} {n : Nat} (hw : t.walk = some w) (hp : w.position = .marker) (hn :
    rawLength t = .ok n)
    (hc : w.cursor.toNat < n) :
    (t.req.rawBuf.read w.cursor.toNat = none ∧ step t = .fault (.noValue (.cell .rawSpace w.cursor.toNat))) ∨
    (t.req.rawBuf.read w.cursor.toNat = some 0x7E#8 ∧ step t = exec .flag t) ∨
    (∃ b, b ≠ 0x7E#8 ∧ t.req.rawBuf.read w.cursor.toNat = some b ∧ step t = halt t (.raised w.malformedError)) := by
  have h1 : ¬ n ≤ w.cursor.toNat := by omega
  cases hb : t.req.rawBuf.read w.cursor.toNat with
  | none =>
    left; refine ⟨rfl, ?_⟩
    simp [step, fetch, hw, fetchSymbol, hn, h1, symbolBytes, readRaw, hb]
  | some b =>
    right
    by_cases hf : b = 0x7E#8
    · left
      subst hf
      refine ⟨rfl, ?_⟩
      simp [step, fetch, hw, fetchSymbol, hn, h1, symbolBytes, readRaw_some hb, hp, decodeWire, Config.FLAG]
    · right
      refine ⟨b, hf, rfl, ?_⟩
      simp [step, fetch, hw, fetchSymbol, hn, h1, symbolBytes, readRaw_some hb, hp, decodeWire, Config.FLAG, hf]

end Sys2Proof.Machine
end

