-- ==== Sys2Proof/Laws/Host.lean ====
section
/-! SUPPORT. The host's actions: reads, and the writes that fill a buffer. -/

namespace Sys2Proof.Machine

theorem present_cell (b : Space) (i : Nat) : (Place.cell b i).present = true ↔ i < b.cap := by
  simp only [Place.present, Place.absentFault]
  split <;> simp_all

theorem absentFault_of_present {p : Place} (h : p.present = true) : p.absentFault = none := by
  simpa [Place.present] using h

/-- A host read of a place that exists and holds a value. -/
theorem hostRead_value {p : Place} {s : State} {v : Nat} (hp : p.present = true) (hv : s.value p = some v) :
    hostRead p s = .ok v := by
  simp [hostRead, absentFault_of_present hp, hv]

/-- A host read of ⊥ (R41). -/
theorem hostRead_none {p : Place} {s : State} (hp : p.present = true) (hv : s.value p = none) :
    hostRead p s = .error (.noValue p) := by
  simp [hostRead, absentFault_of_present hp, hv]

/-- The writes that fill `IN` leave the bytes there and every other register as it was. -/
theorem runActions_fillIn (p : List Byte) (i : Nat) (rest : List HostAction) (s : State) (hw : s.walk = none)
    (h : i + p.length ≤ 255) :
    runActions (fillIn i p ++ rest) s =
      runActions rest { s with req := { s.req with inBuf := Memory.writeAll i p s.req.inBuf } } := by
  induction p generalizing i s with
  | nil => rfl
  | cons b p ih =>
    simp only [List.length_cons] at h
    have hi : i < Config.IN_CAP := by simp only [Config.IN_CAP]; omega
    simp only [fillIn, List.cons_append, runActions, act_of_between hw, actBetween, hostWriteIn, if_pos hi, hostWrite]
    exact ih (i + 1) _ hw (by omega)

/-- The writes that fill `RAW` leave the bytes there and every other register as it was. -/
theorem runActions_fillRaw (p : List Byte) (i : Nat) (rest : List HostAction) (s : State) (hw : s.walk = none)
    (h : i + p.length ≤ 522) :
    runActions (fillRaw i p ++ rest) s =
      runActions rest { s with req := { s.req with rawBuf := Memory.writeAll i p s.req.rawBuf } } := by
  induction p generalizing i s with
  | nil => rfl
  | cons b p ih =>
    simp only [List.length_cons] at h
    have hi : i < Config.RX_FRAME_CAP := by simp only [Config.RX_FRAME_CAP]; omega
    simp only [fillRaw, List.cons_append, runActions, act_of_between hw, actBetween, hostWriteRaw, if_pos hi, hostWrite]
    exact ih (i + 1) _ hw (by omega)

/-- The run that is one `issue`. -/
theorem runActions_issue {s : State} (hw : s.walk = none) : runActions [.issue] s = step s := by
  simp only [runActions, act_of_between hw, actBetween]
  cases step s <;> rfl

/-- Bytes written to `IN` from cell 0 on are presented there. -/
theorem input_of_writeAll {s : State} {m : Memory} {p : List Byte} (hp : p.length ≤ 255)
    (h1 : s.req.inlen = some (BitVec.ofNat 16 p.length)) (h2 : s.req.inBuf = Memory.writeAll 0 p m) : s.Input p := by
  refine ⟨hp, h1, fun k hk => ?_⟩
  rw [h2, Memory.read_writeAll, if_pos (by omega), Nat.sub_zero]

/-- Bytes written to `RAW` from cell 0 on are presented there. -/
theorem raw_of_writeAll {s : State} {m : Memory} {r : List Byte} (hr : r.length ≤ 522)
    (h1 : s.req.rawlen = some (BitVec.ofNat 10 r.length)) (h2 : s.req.rawBuf = Memory.writeAll 0 r m) :
    s.Raw r r.length := by
  refine ⟨Nat.le_refl _, hr, h1, fun k hk => ?_⟩
  rw [h2, Memory.read_writeAll, if_pos (by omega), Nat.sub_zero]

end Sys2Proof.Machine
end

