-- ==== Sys2Proof/Laws/Reports.lean ====
section
/-! SUPPORT. What a report depends on, which errors can be raised, and that a buffer of values gives no fault. -/

namespace Sys2Proof.Machine

/-- No instruction changes a request register (R22, R211). -/
theorem exec_keeps_request {i : Instr} {s t : State} (h : exec i s = .next t) : t.req = s.req := by
  have hp : ∀ {x : Except Stop Move}, proceed s x = .next t → t.req = s.req := by
    intro x h
    rcases proceed_next h with ⟨w, -, rfl⟩ | ⟨r, -, rfl⟩ | ⟨k, -, rfl⟩ <;> rfl
  have hc : ∀ {x : Except Stop ResRegs}, conclude s x = .next t → t.req = s.req := by
    intro x h
    rcases conclude_next h with ⟨r, -, rfl⟩ | ⟨k, -, rfl⟩ <;> rfl
  cases i <;> first | exact hc h | exact hp h

/-- Two states with the same rule outcome report the same. -/
theorem SameReport.conclude {s s' : State} {x : Except Stop ResRegs} : SameReport (conclude s x) (conclude s' x) := by
  cases x with
  | ok r => rfl
  | error e => cases e <;> rfl

/-- `readInput` reads only its own cells (R41). -/
theorem readInput_congr {m m' : Memory} {n i : Nat} (h : ∀ k, k < n → m.read (i + k) = m'.read (i + k)) :
    readInput m n i = readInput m' n i := by
  induction n generalizing i with
  | zero => rfl
  | succ n ih =>
    have h0 : m.read i = m'.read i := by simpa using h 0 (by omega)
    have ht := ih (i := i + 1) (fun k hk => by have := h (k + 1) (by omega); simpa [Nat.add_assoc, Nat.add_comm 1 k]
        using this)
    simp only [readInput, h0, ht]

/-- A read depends on its cell alone. -/
theorem readRaw_congr {m m' : Memory} {i : Nat} (h : m.read i = m'.read i) : readRaw m i = readRaw m' i := by
  simp [readRaw, h]

/-- The destuffer reads only cells below `n` (R59). -/
theorem destuff_congr {m m' : Memory} {n i : Nat} (h : ∀ k, k < n → m.read k = m'.read k) : destuff m n i =
    destuff m' n i := by
  unfold destuff
  split
  · rfl
  · rename_i hlt
    rw [readRaw_congr (h i (by omega))]
    by_cases hl : i + 1 = n
    · simp [hl]
    · rw [readRaw_congr (h (i+1) (by omega))]

/-- PAYLOAD reads only cells below `n` (R59). -/
theorem payloadFields_congr {m m' : Memory} {n : Nat} (h : ∀ k, k < n → m.read k = m'.read k) (k i : Nat) (acc :
    List Byte) :
    payloadFields m n k i acc = payloadFields m' n k i acc := by
  induction k generalizing i acc with
  | zero => rfl
  | succ k ih => simp only [payloadFields, destuff_congr h, ih]

/-- STOP reads only a cell below `n` (R59). -/
theorem stopMarker_congr {m m' : Memory} {n i : Nat} (h : ∀ k, k < n → m.read k = m'.read k) : stopMarker m n i =
    stopMarker m' n i := by
  unfold stopMarker
  split
  · rfl
  · rename_i hlt
    rw [readRaw_congr (h i (by omega))]

/-- DECODE reads only cells below `n` (R42, R59). -/
theorem decodeFrame_congr {m m' : Memory} {n : Nat} {x : Byte} (h : ∀ k, k < n → m.read k = m'.read k) :
    decodeFrame m n x = decodeFrame m' n x := by
  unfold decodeFrame
  split
  · rfl
  · rename_i hlt
    simp only [Config.MIN_RX_FRAME] at hlt
    rw [readRaw_congr (h 0 (by omega))]
    simp only [headerFields, destuff_congr h, payloadFields_congr h, stopMarker_congr h]

/-- The one error PAYLOAD itself raises (R176). -/
theorem payloadFields_raised {m : Memory} {n k i : Nat} {acc : List Byte} {e : ErrKind} (h :
    payloadFields m n k i acc = .error (.raised e)) : e = .truncatedFrame := by
  induction k generalizing i acc with
  | zero => simp at h
  | succ k ih =>
    rw [payloadFields] at h
    split at h
    · simp only [bind_eq_error] at h
      rcases h with h | ⟨a, -, h⟩
      · exact destuff_raised h
      · exact ih h
    · simp at h

/-- The one error HEADER raises (R175). -/
theorem headerFields_raised {m : Memory} {n i : Nat} {e : ErrKind} (h : headerFields m n i = .error (.raised e)) : e =
    .truncatedFrame := by
  simp only [headerFields, bind_eq_error] at h
  rcases h with h | ⟨_, -, h | ⟨_, -, h | ⟨_, -, h | ⟨_, -, h⟩⟩⟩⟩
  · exact destuff_raised h
  · exact destuff_raised h
  · exact destuff_raised h
  · exact destuff_raised h
  · simp at h

/-- The one error STOP raises (R181). -/
theorem stopMarker_raised {m : Memory} {n i : Nat} {e : ErrKind} (h : stopMarker m n i = .error (.raised e)) : e =
    .missingStopMarker := by
  unfold stopMarker at h
  split at h
  · simpa using h.symm
  · simp only [bind_eq_error] at h
    rcases h with h | ⟨_, -, h⟩
    · exact absurd h (operand_not_raised _ _ _)
    · split at h
      · simp at h
      · simpa using h.symm

/-- The errors of the frame function (R172, R190). -/
theorem decodeFrame_raised {m : Memory} {n : Nat} {x : Byte} {e : ErrKind} (h : decodeFrame m n x = .error
    (.raised e)) : 2 ≤ e.code.toNat ∧ e.code.toNat ≤ 7 := by
  unfold decodeFrame at h
  split at h
  · obtain rfl : e = .frameTooShort := by simpa using h.symm
    decide
  · simp only [bind_eq_error] at h
    rcases h with h | ⟨_, -, h⟩
    · exact absurd h (operand_not_raised _ _ _)
    split at h
    · obtain rfl : e = .missingStartMarker := by simpa using h.symm
      decide
    simp only [bind_eq_error] at h
    rcases h with h | ⟨_, -, h | ⟨_, -, h⟩⟩
    · rw [headerFields_raised h]; decide
    · rw [payloadFields_raised h]; decide
    split at h
    · obtain rfl : e = .incompleteResponse := by simpa using h.symm
      decide
    simp only [bind_eq_error] at h
    rcases h with h | ⟨_, -, h⟩
    · rw [destuff_raised h]; decide
    split at h
    · obtain rfl : e = .checksumMismatch := by simpa using h.symm
      decide
    simp only [bind_eq_error] at h
    rcases h with h | ⟨_, -, h⟩
    · rw [stopMarker_raised h]; decide
    · simp at h

/-- The one error of DESTUFF (R126). -/
theorem destuffRule_raised {s : State} {k : ErrKind} (h : (do
    let n ← rawLength s
    let i ← operand (.req .cur) s.req.cur
    let (b, nx) ← destuff s.req.rawBuf n i.toNat
    .ok { ResRegs.blank with rbyte := some b, rnext := some (BitVec.ofNat 10 nx) } : Except Stop ResRegs) = .error
        (.raised k)) : k = .truncatedFrame := by
  simp only [bind_eq_error] at h
  rcases h with h | ⟨_, -, h | ⟨_, -, h | ⟨_, -, h⟩⟩⟩
  · exact absurd h (rawLength_not_raised _ _)
  · exact absurd h (operand_not_raised _ _ _)
  · exact destuff_raised h
  · simp at h

/-- The rule leaves early only by an error of the block: no fault, no refusal. -/
def Clean {α : Type} (x : Except Stop α) : Prop := ∀ e, x = .error e → ∃ k, e = .raised k

theorem clean_bind {α β : Type} {x : Except Stop α} {f : α → Except Stop β} (hx : Clean x) (hf : ∀ a, x =
    .ok a → Clean (f a)) : Clean (x >>= f) := by
  intro e h
  rw [bind_eq_error] at h
  rcases h with h | ⟨a, ha, h⟩
  · exact hx e h
  · exact hf a ha e h

theorem clean_ok {α : Type} (a : α) : Clean (.ok a : Except Stop α) := by intro e h; simp at h

theorem clean_raised {α : Type} (k : ErrKind) : Clean (.error (.raised k) : Except Stop α) := by
  intro e h; exact ⟨k, by simpa using h.symm⟩

/-- The destuffer on a buffer of values. -/
theorem clean_destuff {m : Memory} {n : Nat} (hv : ∀ k, k < n → m.read k ≠ none) (i : Nat) : Clean (destuff m n i) := by
  rcases destuff_total hv i with ⟨b, j, h⟩ | h <;> rw [h]
  · exact clean_ok _
  · exact clean_raised _

theorem clean_readRaw {m : Memory} {n : Nat} (hv : ∀ k, k < n → m.read k ≠ none) {i : Nat} (hi : i < n) : Clean
    (readRaw m i) := by
  obtain ⟨b, hb⟩ := Option.ne_none_iff_exists'.mp (hv i hi)
  rw [readRaw_some hb]; exact clean_ok _

/-- PAYLOAD on a buffer of values. -/
theorem clean_payloadFields {m : Memory} {n : Nat} (hv : ∀ k, k < n → m.read k ≠ none) (k i : Nat) (acc : List Byte) :
    Clean (payloadFields m n k i acc) := by
  induction k generalizing i acc with
  | zero => exact clean_ok _
  | succ k ih =>
    rw [payloadFields]
    split
    · exact clean_bind (clean_destuff hv _) (fun a _ => ih _ _)
    · exact clean_ok _

/-- DECODE on a buffer of values ends in success or in an error (R170, R190). -/
theorem clean_decodeFrame {m : Memory} {n : Nat} {x : Byte} (hv : ∀ k, k < n → m.read k ≠ none) : Clean
    (decodeFrame m n x) := by
  unfold decodeFrame
  split
  · exact clean_raised _
  · rename_i hn
    simp only [Config.MIN_RX_FRAME] at hn
    refine clean_bind (clean_readRaw hv (by omega)) (fun b _ => ?_)
    split
    · exact clean_raised _
    refine clean_bind ?_ (fun h _ => ?_)
    · unfold headerFields
      exact clean_bind (clean_destuff hv _) fun _ _ => clean_bind (clean_destuff hv _) fun _ _ => clean_bind
          (clean_destuff hv _) fun _ _ => clean_bind (clean_destuff hv _) fun _ _ => clean_ok _
    refine clean_bind (clean_payloadFields hv _ _ _) (fun ⟨p, cc⟩ _ => ?_)
    simp only
    split
    · exact clean_raised _
    refine clean_bind (clean_destuff hv _) (fun c _ => ?_)
    split
    · exact clean_raised _
    refine clean_bind ?_ (fun _ _ => clean_ok _)
    unfold stopMarker
    split
    · exact clean_raised _
    · rename_i hlt
      refine clean_bind (clean_readRaw hv (by omega)) (fun b _ => ?_)
      split
      · exact clean_ok _
      · exact clean_raised _

end Sys2Proof.Machine
end

