-- ==== Sys2Proof/Laws/Invariant.lean ====
section
/-! SUPPORT. The parts of the invariant: what `raise` and `finish` leave, and the lengths of the result buffers. -/

namespace Sys2Proof.Machine

/-- `ERR` holds 1 to 7 (R210). -/
theorem ErrKind.code_range (e : ErrKind) : 1 ≤ e.code.toNat ∧ e.code.toNat ≤ 7 := by cases e <;> decide

/-- `raise` keeps the invariant. -/
theorem raise_inv {s : State} (e : ErrKind) (h : s.Inv) : (raise e s).Inv := by
  refine ⟨h.1, h.2.1, ⟨by simp [ERR], ?_, rfl, rfl⟩, ?_, ?_, ?_⟩
  · intro c hc
    simp only [raise_res, Option.some.injEq] at hc
    subst hc; exact ErrKind.code_range e
  · intro _; simp [ERR]
  · intro h; simp [ERR] at h
  · intro w hw; simp at hw

/-- `finish` keeps the invariant when the result buffers match their lengths. -/
theorem finish_inv {s : State} {r : ResRegs} (h : s.Inv) (he : r.err = none) (h1 : lengthMatches 520
    (r.outlen.map BitVec.toNat) r.outBuf)
    (h2 : lengthMatches 255 (r.rdlen.map BitVec.toNat) r.rpay) : (finish r s).Inv := by
  refine ⟨h.1, h.2.1, ⟨by simp [OK], ?_, h1, h2⟩, ?_, ?_, ?_⟩
  · intro c hc; simp [he] at hc
  · intro _; simp [OK, he]
  · intro h; simp [OK] at h
  · intro w hw; simp at hw

theorem frameResult_lengthMatches {h : Header} {pay : List Byte} (hl : pay.length = h.dlen.toNat) : lengthMatches 255
    ((frameResult h pay).rdlen.map BitVec.toNat) (frameResult h pay).rpay := by
  refine ⟨by have := h.dlen.isLt; omega, ?_⟩
  rw [← hl]
  exact Memory.keys_ofBytes pay

theorem outResult_lengthMatches {o : List Byte} (hl : o.length ≤ 520) : lengthMatches 520
    ((outResult o).outlen.map BitVec.toNat) (outResult o).outBuf := by
  have : (BitVec.ofNat 10 o.length).toNat = o.length := by simp; omega
  simp only [lengthMatches, outResult, Option.map_some, this]
  exact ⟨hl, Memory.keys_ofBytes o⟩

/-- The gate of PAYLOAD leads to a legal phase (R176, R177). -/
theorem gate_inv {s : State} {cur : BitVec 10} {h : Header} {pay : List Byte} {mv : Move} (hp :
    pay.length ≤ h.dlen.toNat) (he : payloadGate s cur h pay = .ok mv) :
    ∃ w : Walk, mv = .more w ∧ w.Inv := by
  simp only [payloadGate, bind_eq_ok] at he
  obtain ⟨n, -, m, -, he⟩ := he
  split at he
  · rename_i hc
    simp only [Except.ok.injEq] at he
    exact ⟨_, he.symm, hc.1⟩
  · split at he
    · simp at he
    · rename_i hc
      simp only [Except.ok.injEq] at he
      exact ⟨_, he.symm, show pay.length = _ by omega⟩

end Sys2Proof.Machine
end

