-- ==== Sys2Proof/Laws/PerInstr.lean ====
section
/-! SUPPORT. Statements about every instruction as syntax, one lemma per constructor. -/

namespace Sys2Proof.Laws

/-- R72: the encoding of a well-formed wire symbol is two bytes long when its first byte is 0x7D and one byte long
otherwise. A request has no wire bytes. -/
def FieldLength.Statement (i : Instr) : Prop :=
  ∀ bs, encode i = .wire bs → i.wf = true →
    (bs.head? = some Config.ESC → bs.length = 2) ∧ (bs.head? ≠ some Config.ESC → bs.length = 1)

/-- An encoding that is a request has no wire bytes. -/
theorem FieldLength.of_op {i : Instr} {v : BitVec 3} (h : encode i = .op v) : FieldLength.Statement i := by
  intro bs hb
  simp [h] at hb

/-- An escape pair is two bytes long. -/
theorem FieldLength.of_pair {i : Instr} {x : Byte} (h : encode i = .wire [0x7D#8, x]) : FieldLength.Statement i := by
  intro bs hb _
  obtain rfl : [0x7D#8, x] = bs := by simpa [h] using hb
  simp [Config.ESC]

theorem FieldLength.cksum : FieldLength.Statement .cksum := of_op rfl
theorem FieldLength.stuff : FieldLength.Statement .stuff := of_op rfl
theorem FieldLength.destuff : FieldLength.Statement .destuff := of_op rfl
theorem FieldLength.encode : FieldLength.Statement .encode := of_op rfl
theorem FieldLength.decode : FieldLength.Statement .decode := of_op rfl
theorem FieldLength.esc11 : FieldLength.Statement .esc11 := of_pair rfl
theorem FieldLength.esc13 : FieldLength.Statement .esc13 := of_pair rfl
theorem FieldLength.esc7D : FieldLength.Statement .esc7D := of_pair rfl
theorem FieldLength.esc7E : FieldLength.Statement .esc7E := of_pair rfl
theorem FieldLength.escNoncanonical (x : Byte) : FieldLength.Statement (.escNoncanonical x) := of_pair rfl

theorem FieldLength.flag : FieldLength.Statement .flag := by
  intro bs hb _
  obtain rfl : [0x7E#8] = bs := by simpa [Sys2Proof.encode] using hb
  simp [Config.ESC]

theorem FieldLength.literal (b : Byte) : FieldLength.Statement (.literal b) := by
  intro bs hb hw
  obtain rfl : [b] = bs := by simpa [Sys2Proof.encode] using hb
  have : b ≠ Config.ESC := by simpa [Instr.wf] using hw
  simp [this]

end Sys2Proof.Laws
end

