-- ==== Sys2Proof/Laws/Phases.lean ====
section
/-! SUPPORT. Running the phases of a DECODE in progress symbol by symbol (R34, R170; log entry 2). -/

namespace Sys2Proof.Machine

/-- From `t` the machine answers, within `K` steps, the outcome of the rule `x`. -/
def RunsTo (t : State) (K : Nat) (x : Except Stop ResRegs) : Prop := ∃ k, k ≤ K ∧ Host.Core.run core k t = conclude t x

theorem conclude_congr {t s : State} (h : t.req = s.req) (x : Except Stop ResRegs) : conclude t x = conclude s x := by
  cases x with
  | ok r => simp [finish, h]
  | error e => cases e <;> simp [raise, h]

theorem run_next {t t' : State} (k : Nat) (h : step t = .next t') : Host.Core.run core (k + 1) t =
    Host.Core.run core k t' := by
  have h' : core.step t = .next t' := h
  simp only [Host.Core.run, h']

theorem run_halt {t : State} {e : Stop} (h : step t = halt t e) : Host.Core.run core 1 t = halt t e := by
  have h' : core.step t = halt t e := h
  cases e <;> simp only [Host.Core.run, h'] <;> rfl

theorem runsTo_next {t t' : State} {K : Nat} {x : Except Stop ResRegs} (h : step t = .next t') (hr : t'.req = t.req)
    (hR : RunsTo t' K x) : RunsTo t (K + 1) x := by
  obtain ⟨k, hk, he⟩ := hR
  refine ⟨k + 1, by omega, ?_⟩
  rw [← conclude_congr hr, ← he]
  exact run_next k h

theorem runsTo_halt {t : State} {e : Stop} (h : step t = halt t e) : RunsTo t 1 (.error e) := by
  exact ⟨1, le_refl _, run_halt h⟩

theorem runsTo_done {t : State} {r : ResRegs} (h : step t = .next (finish r t)) : RunsTo t 1 (.ok r) := by
  exact ⟨1, le_refl _, run_next 0 h⟩

theorem runsTo_mono {t : State} {K K' : Nat} {x : Except Stop ResRegs} (h : RunsTo t K x) (hk : K ≤ K') :
    RunsTo t K' x := by
  obtain ⟨k, h1, h2⟩ := h
  exact ⟨k, by omega, h2⟩

/-- STOP, run (R181). -/
theorem runsTo_stop {t : State} {n : Nat} {cur : BitVec 10} {h : Header} {pay : List Byte} (hw : t.walk = some
    (.stop cur h pay)) (hn : rawLength t = .ok n) :
    RunsTo t 1 (do stopMarker t.req.rawBuf n cur.toNat; .ok (frameResult h pay)) := by
  by_cases hc : n ≤ cur.toNat
  · have := step_end hw hn hc
    simp only [stopMarker, hc, if_true, error_bind]
    exact runsTo_halt this
  · rcases step_marker hw rfl hn (show (Walk.stop cur h pay).cursor.toNat < n by simp [Walk.cursor]; omega) with ⟨h1,
        h2⟩ | ⟨h1, h2⟩ | ⟨b, hb, h1, h2⟩
    · simp only [Walk.cursor] at h1 h2
      have : stopMarker t.req.rawBuf n cur.toNat = .error (.fault (.noValue (.cell .rawSpace cur.toNat))) := by simp
          [stopMarker, hc, readRaw, h1]
      rw [this]
      exact runsTo_halt (by rw [h2]; rfl)
    · simp only [Walk.cursor] at h1
      rw [stopMarker_ok (by omega) h1]
      refine runsTo_done ?_
      rw [h2]
      simp [exec, execFlag, takeSymbol, symbolMove, hw, Config.FLAG]
    · simp only [Walk.cursor] at h1
      have : stopMarker t.req.rawBuf n cur.toNat = .error (.raised .missingStopMarker) := by simp [stopMarker, hc,
          readRaw_some h1, Config.FLAG, hb]
      rw [this]
      exact runsTo_halt h2

/-- The rule of DECODE from CHECKSUM on (R179 to R181). -/
def checksumOn (m : Memory) (n cur : Nat) (h : Header) (pay : List Byte) : Except Stop ResRegs := do
  let (crc, cur) ← destuff m n cur
  if crc ≠ h.expected pay then .error (.raised .checksumMismatch)
  else do
    stopMarker m n cur
    .ok (frameResult h pay)

/-- The cursor never wraps below `RAWLEN` (R33). -/
theorem cursor_add_toNat {cur : BitVec 10} {u n : Nat} (h : cur.toNat + u ≤ n) (hn : n ≤ 522) :
    (cur + BitVec.ofNat 10 u).toNat = cur.toNat + u := by
  simp only [BitVec.toNat_add, BitVec.toNat_ofNat]; omega

/-- CHECKSUM and STOP, run. -/
theorem runsTo_checksum {t : State} {n : Nat} {cur : BitVec 10} {h : Header} {pay : List Byte} (hw : t.walk = some
    (.checksum cur h pay)) (hn : rawLength t = .ok n) :
    RunsTo t 2 (checksumOn t.req.rawBuf n cur.toNat h pay) := by
  have hn5 := (rawLength_eq_ok hn).1
  by_cases hc : n ≤ cur.toNat
  · have := step_end hw hn hc
    rw [checksumOn, destuff_past hc]
    exact runsTo_mono (runsTo_halt this) (by omega)
  · rcases step_field hw rfl hn (show (Walk.checksum cur h pay).cursor.toNat < n by simp [Walk.cursor]; omega) with
        ⟨b, first, u, hd, hle, hs⟩ | ⟨e, hd, hs⟩
    · simp only [Walk.cursor] at hd hle
      rw [checksumOn, hd]
      simp only [ok_bind]
      simp only [takeSymbol, symbolMove, hw] at hs
      by_cases hb : b = h.expected pay
      · rw [if_neg (by simpa using hb)]
        rw [if_pos hb] at hs
        have := cursor_add_toNat hle hn5
        rw [← this]
        exact runsTo_next (K := 1) hs rfl (runsTo_stop (t := { t with walk := some (.stop (cur + BitVec.ofNat 10 u)
            h pay) }) rfl hn)
      · rw [if_pos (by simpa using hb)]
        rw [if_neg hb] at hs
        exact runsTo_mono (runsTo_halt hs) (by omega)
    · simp only [Walk.cursor] at hd
      rw [checksumOn, hd]
      exact runsTo_mono (runsTo_halt hs) (by omega)

/-- The rule of DECODE from PAYLOAD on (R176 to R181). -/
def payloadOn (mm : Memory) (n k cur : Nat) (h : Header) (pay : List Byte) : Except Stop ResRegs := do
  let (pay, cur) ← payloadFields mm n k cur pay
  if pay.length < h.dlen.toNat then .error (.raised .incompleteResponse)
  else checksumOn mm n cur h pay

/-- PAYLOAD and what follows, run. -/
theorem runsTo_payload {n : Nat} {m : Byte} {h : Header} (hn5 : n ≤ 522) (k : Nat) : ∀ (t : State) (cur : BitVec 10)
    (pay : List Byte), rawLength t = .ok n → t.req.maxlen = some m →
    step t = proceed t (payloadGate t cur h pay) → pay.length + k = min h.dlen.toNat m.toNat →
    RunsTo t (k + 3) (payloadOn t.req.rawBuf n k cur.toNat h pay) := by
  induction k with
  | zero =>
    intro t cur pay hn hm hs hk
    simp only [payloadOn, payloadFields_zero, ok_bind]
    have hgate : payloadGate t cur h pay = if pay.length < h.dlen.toNat then .error (.raised .incompleteResponse)
        else .ok (.more (.checksum cur h pay)) := by
      simp only [payloadGate, hn, hm, operand_some, ok_bind]
      rw [if_neg (by omega)]
    rw [hgate] at hs
    split
    · rename_i hl
      rw [if_pos hl] at hs
      exact runsTo_mono (runsTo_halt hs) (by omega)
    · rename_i hl
      rw [if_neg hl] at hs
      exact runsTo_next (K := 2) hs rfl (runsTo_checksum (t := { t with walk := some (.checksum cur h pay) }) rfl hn)
  | succ k ih =>
    intro t cur pay hn hm hs hk
    by_cases hc : cur.toNat < n
    · have hgate : payloadGate t cur h pay = .ok (.more (.payload cur h pay)) := by
        simp only [payloadGate, hn, hm, operand_some, ok_bind]
        rw [if_pos (by omega)]
      rw [hgate] at hs
      refine runsTo_next (K := k + 3) (t' := { t with walk := some (.payload cur h pay) }) hs rfl ?_
      set t' : State := { t with walk := some (.payload cur h pay) } with ht'
      simp only [payloadOn, payloadFields, if_pos hc]
      rcases step_field (t := t') (w := .payload cur h pay) (n := n) rfl rfl hn hc with ⟨b, first, u, hd, hle, hs'⟩ |
          ⟨e, hd, hs'⟩
      · simp only [Walk.cursor] at hd hle
        have hd' : destuff t.req.rawBuf n cur.toNat = .ok (b, cur.toNat + u) := hd
        rw [hd']
        simp only [ok_bind]
        have := cursor_add_toNat hle hn5
        rw [← this]
        refine ih t' (cur + BitVec.ofNat 10 u) (pay ++ [b]) hn hm ?_ (by simp; omega)
        rw [hs']
        simp [takeSymbol, symbolMove, ht']
      · simp only [Walk.cursor] at hd
        have hd' : destuff t.req.rawBuf n cur.toNat = .error e := hd
        rw [hd']
        exact runsTo_mono (runsTo_halt hs') (by omega)
    · have hgate : payloadGate t cur h pay = .error (.raised .incompleteResponse) := by
        simp only [payloadGate, hn, hm, operand_some, ok_bind]
        rw [if_neg (by omega), if_pos (by omega)]
      rw [hgate] at hs
      simp only [payloadOn, payloadFields_end (k+1) pay (show n ≤ cur.toNat by omega), ok_bind]
      rw [if_pos (by omega)]
      exact runsTo_mono (runsTo_halt hs) (by omega)

/-- A header field that is not the last, run. -/
theorem runsTo_header {t : State} {n K : Nat} {cur : BitVec 10} {got : List Byte} (hg : got.length < 3) (hw : t.walk =
    some (.header cur got)) (hn : rawLength t = .ok n)
    (f : Byte → Nat → Except Stop ResRegs)
    (hf : ∀ b (cur' : BitVec 10), cur'.toNat ≤ n → RunsTo { t with walk := some (.header cur' (got ++ [b])) } K
        (f b cur'.toNat)) :
    RunsTo t (K + 1) (do let (b, c) ← destuff t.req.rawBuf n cur.toNat; f b c) := by
  have hn5 := (rawLength_eq_ok hn).1
  by_cases hc : n ≤ cur.toNat
  · have := step_end hw hn hc
    rw [destuff_past hc]
    exact runsTo_mono (runsTo_halt this) (by omega)
  · rcases step_field hw rfl hn (show (Walk.header cur got).cursor.toNat < n by simp [Walk.cursor]; omega) with ⟨b,
        first, u, hd, hle, hs⟩ | ⟨e, hd, hs⟩
    · simp only [Walk.cursor] at hd hle
      rw [hd]
      simp only [ok_bind]
      have := cursor_add_toNat hle hn5
      rw [← this]
      refine runsTo_next (t' := { t with walk := some (.header (cur + BitVec.ofNat 10 u) (got ++ [b])) }) ?_ rfl (hf b
          (cur + BitVec.ofNat 10 u) (by omega))
      rw [hs]
      match got, hg with
      | [], _ => simp [takeSymbol, symbolMove, hw]
      | [a], _ => simp [takeSymbol, symbolMove, hw]
      | [a, c], _ => simp [takeSymbol, symbolMove, hw]
    · simp only [Walk.cursor] at hd
      rw [hd]
      exact runsTo_mono (runsTo_halt hs) (by omega)

/-- The last header field and what follows, run. -/
theorem runsTo_lastHeader {t : State} {n : Nat} {m : Byte} {cur : BitVec 10} {a c st : Byte} (hw : t.walk = some
    (.header cur [a, c, st])) (hn : rawLength t = .ok n) (hm : t.req.maxlen = some m) :
    RunsTo t 258 (do
      let (d, j) ← destuff t.req.rawBuf n cur.toNat
      payloadOn t.req.rawBuf n (min d.toNat m.toNat) j ⟨a, c, st, d⟩ []) := by
  have hn5 := (rawLength_eq_ok hn).1
  by_cases hc : n ≤ cur.toNat
  · have := step_end hw hn hc
    rw [destuff_past hc]
    exact runsTo_mono (runsTo_halt this) (by omega)
  · rcases step_field hw rfl hn (show (Walk.header cur [a, c, st]).cursor.toNat < n by simp [Walk.cursor]; omega) with
        ⟨d, first, u, hd, hle, hs⟩ | ⟨e, hd, hs⟩
    · simp only [Walk.cursor] at hd hle
      rw [hd]
      simp only [ok_bind]
      have := cursor_add_toNat hle hn5
      rw [← this]
      refine runsTo_mono (runsTo_payload hn5 (min d.toNat m.toNat) t (cur + BitVec.ofNat 10 u) [] hn hm ?_ (by simp))
          (by omega)
      rw [hs]; simp [takeSymbol, symbolMove, hw]
    · simp only [Walk.cursor] at hd
      rw [hd]
      exact runsTo_mono (runsTo_halt hs) (by omega)

end Sys2Proof.Machine
end

