-- ==== Sys2Proof/Tests/Slice0.lean ====
section
/-! SUPPORT. The model's own tests. Expected results come from the spec: its encoding tables (30_encoding.md,
opcode_table.json) and its test vectors (95_test_vectors.md, whose ids the docstrings give). The last part gives, for every
statement with hypotheses, a concrete state and operands that meet them. -/

namespace Sys2Proof.Tests

open Sys2Proof Sys2Proof.Machine

/-! ### Small states -/

/-- A state just after reset with `OP`, `INLEN` = |p| and `IN` = p. -/
def inState (op : BitVec 3) (p : List Byte) : State :=
  { State.reset with
    req := { State.reset.req with op := some op, inlen := some (BitVec.ofNat 16 p.length), inBuf := Memory.ofBytes p } }

/-- `inState` for CKSUM, with `HSUM` and `DLEN`. -/
def cksumState (hs dl : Byte) (p : List Byte) : State :=
  { inState 0#3 p with req := { (inState 0#3 p).req with hsum := some hs, dlen := some dl } }

/-- `inState` for ENCODE, with `ADDR` and `CMD`. -/
def encodeState (a c : Byte) (p : List Byte) : State :=
  { inState 3#3 p with req := { (inState 3#3 p).req with addr := some a, cmd := some c } }

/-- A state just after reset with `OP`, `RAWLEN` = n and `RAW` beginning with f. -/
def rawState (op : BitVec 3) (f : List Byte) (n : Nat) : State :=
  { State.reset with
    req := { State.reset.req with op := some op, rawlen := some (BitVec.ofNat 10 n), rawBuf := Memory.ofBytes f } }

/-- `rawState` for DESTUFF, with `CUR`. -/
def destuffState (f : List Byte) (cur : BitVec 10) : State :=
  { rawState 2#3 f f.length with req := { (rawState 2#3 f f.length).req with cur := some cur } }

/-- `rawState` for DECODE, with `MAXLEN` and a `RAWLEN` of its own. -/
def decodeStateN (f : List Byte) (n : Nat) (m : Byte) : State :=
  { rawState 4#3 f n with req := { (rawState 4#3 f n).req with maxlen := some m } }

/-- `decodeStateN` with `RAWLEN` = |f|. -/
def decodeState (f : List Byte) (m : Byte) : State := decodeStateN f f.length m

/-- A state inside an operation. -/
def walkState (w : Walk) (s : State) : State := openWalk w s

/-- A state whose `OP` alone is written. -/
def opState (op : Option (BitVec 3)) : State := { State.reset with req := { State.reset.req with op := op } }

/-- A state whose `INLEN` alone is written. -/
def lengthState (n : BitVec 16) : State := { State.reset with req := { State.reset.req with inlen := some n } }

/-- A state whose `RAWLEN` alone is written. -/
def rawLengthState (n : BitVec 10) : State := { State.reset with req := { State.reset.req with rawlen := some n } }

/-- 255 equal bytes, the most `IN` takes. -/
def full (b : Byte) : List Byte := List.replicate 255 b

theorem full_length (b : Byte) : (full b).length ≤ 255 := Nat.le_of_eq List.length_replicate

/-- The result registers of a next state. -/
def results : Outcome → Option ResRegs
  | .next t => some t.res
  | .fault _ => none
  | .refused _ => none

/-- The next state of an outcome. -/
def after : Outcome → Option State
  | .next t => some t
  | .fault _ => none
  | .refused _ => none

/-- The frame of V1.4. -/
def frameS : List Byte :=
  [0x7E#8, 0x00#8, 0xD1#8, 0x00#8, 0x07#8, 0x02#8, 0x7D#8, 0x31#8, 0x00#8, 0x07#8, 0x00#8, 0x02#8, 0x00#8, 0x0B#8, 0x7E#8]

/-! ### WellFormed: an ill-formed term for each check, refused -/

/-- A literal is never 0x7D (R72). -/
theorem test_wf_literal_esc : (Instr.literal 0x7D#8).wf = false := by decide

/-- The four canonical pairs are not non-canonical (R73). -/
theorem test_wf_canonical_pairs :
    (Instr.escNoncanonical 0x31#8).wf = false ∧ (Instr.escNoncanonical 0x33#8).wf = false ∧
    (Instr.escNoncanonical 0x5D#8).wf = false ∧ (Instr.escNoncanonical 0x5E#8).wf = false := by decide

/-- Every other term is well formed. -/
theorem test_wf_others :
    Instr.decode.wf = true ∧ Instr.flag.wf = true ∧ (Instr.literal 0x7E#8).wf = true ∧
    (Instr.escNoncanonical 0x7D#8).wf = true := by decide

/-! ### Decoding: every constructor, by a word written out from the spec's encoding (opcode_table.json, R71, R73, R80) -/

theorem test_decode_cksum : decodeTableWord 3 0b000 = some .cksum := by decide
theorem test_decode_stuff : decodeTableWord 3 0b001 = some .stuff := by decide
theorem test_decode_destuff : decodeTableWord 3 0b010 = some .destuff := by decide
theorem test_decode_encode : decodeTableWord 3 0b011 = some .encode := by decide
theorem test_decode_decode : decodeTableWord 3 0b100 = some .decode := by decide
theorem test_decode_esc11 : decodeTableWord 16 0b0111110100110001 = some .esc11 := by decide
theorem test_decode_esc13 : decodeTableWord 16 0b0111110100110011 = some .esc13 := by decide
theorem test_decode_esc7D : decodeTableWord 16 0b0111110101011101 = some .esc7D := by decide
theorem test_decode_esc7E : decodeTableWord 16 0b0111110101011110 = some .esc7E := by decide
theorem test_decode_escNoncanonical : decodeTableWord 16 0b0111110101111110 = some (.escNoncanonical 0x7E#8) := by decide
theorem test_decode_flag : decodeTableWord 8 0b01111110 = some .flag := by decide
theorem test_decode_literal : decodeTableWord 8 0b01000001 = some (.literal 0x41#8) := by decide

/-- `OP` 5, 6 and 7 are reserved (R81). -/
theorem test_decode_reserved :
    decodeTableWord 3 0b101 = none ∧ decodeTableWord 3 0b110 = none ∧ decodeTableWord 3 0b111 = none := by decide

/-- A 0x7E where a field is expected is a literal (R73), and a 0x7D with nothing after it is no symbol (R72). -/
theorem test_decode_by_position :
    decodeWire .field [0x7E#8] = .ok (.literal 0x7E#8, []) ∧ decodeWire .field [0x7D#8] = .error .truncatedEscape ∧
    decodeWire .marker [0x7D#8, 0x31#8] = .error (.notAMarker 0x7D#8) := ⟨rfl, rfl, rfl⟩

/-- The requests as 8-bit table words: the first step after `withFetchWord` runs the instruction. -/
theorem test_step_runs_each_request :
    step (State.reset.withFetchWord 8 0) = exec .cksum (State.reset.withFetchWord 8 0) ∧
    step (State.reset.withFetchWord 8 1) = exec .stuff (State.reset.withFetchWord 8 1) ∧
    step (State.reset.withFetchWord 8 2) = exec .destuff (State.reset.withFetchWord 8 2) ∧
    step (State.reset.withFetchWord 8 3) = exec .encode (State.reset.withFetchWord 8 3) ∧
    step (State.reset.withFetchWord 8 4) = exec .decode (State.reset.withFetchWord 8 4) := ⟨rfl, rfl, rfl, rfl, rfl⟩

/-- The wire symbols: the first step after `withFetchWord` runs the instruction. -/
theorem test_step_runs_each_symbol :
    step (State.reset.withFetchWord 16 0x7D31) = exec .esc11 (State.reset.withFetchWord 16 0x7D31) ∧
    step (State.reset.withFetchWord 16 0x7D33) = exec .esc13 (State.reset.withFetchWord 16 0x7D33) ∧
    step (State.reset.withFetchWord 16 0x7D5D) = exec .esc7D (State.reset.withFetchWord 16 0x7D5D) ∧
    step (State.reset.withFetchWord 16 0x7D5E) = exec .esc7E (State.reset.withFetchWord 16 0x7D5E) ∧
    step (State.reset.withFetchWord 16 0x7D00) =
      exec (.escNoncanonical 0x00#8) (State.reset.withFetchWord 16 0x7D00) ∧
    step (State.reset.withFetchWord 8 0x7E) = exec .flag (State.reset.withFetchWord 8 0x7E) ∧
    step (State.reset.withFetchWord 8 0x41) = exec (.literal 0x41#8) (State.reset.withFetchWord 8 0x41) :=
  ⟨rfl, rfl, rfl, rfl, rfl, rfl, rfl⟩

/-- From reset with nothing written an issue is refused (R81, R240). -/
theorem test_reset_has_no_step : step State.reset = .refused .noOperation := rfl

/-! ### One step of each instruction -/

/-- V1.2: `CKSUM 0x00, 0x02, [01, 03]` gives `RBYTE` = F9. -/
theorem test_cksum_example :
    (results (step (cksumState 0x00#8 0x02#8 [0x01#8, 0x03#8]))).map ResRegs.rbyte = some (some 0xF9#8) := by decide

/-- V4.5: `CKSUM 0x80, 0x80, [80]` wraps: 0x180 mod 256 = 0x80, `RBYTE` = 7F. -/
theorem test_cksum_wraps :
    (results (step (cksumState 0x80#8 0x80#8 [0x80#8]))).map ResRegs.rbyte = some (some 0x7F#8) := by decide

/-- V2.2: `STUFF [11, 13, 7D, 7E]`. -/
theorem test_stuff_reserved :
    (results (step (inState 1#3 [0x11#8, 0x13#8, 0x7D#8, 0x7E#8]))).map (fun r => (r.outlen, r.outBuf)) =
      some (some 8#10, [(0, 0x7D#8), (1, 0x31#8), (2, 0x7D#8), (3, 0x33#8), (4, 0x7D#8), (5, 0x5D#8), (6, 0x7D#8),
        (7, 0x5E#8)]) := by decide

/-- V2.1: `STUFF []` writes `OUTLEN` = 0 and no cell. -/
theorem test_stuff_empty :
    (results (step (inState 1#3 []))).map (fun r => (r.rstate, r.outlen, r.outBuf)) =
      some (1#2, some 0#10, []) := by decide

/-- V3.12: `DESTUFF [00, 7D, 33, 05], 1` gives `RBYTE` = 13, `RNEXT` = 3. -/
theorem test_destuff_inside :
    (results (step (destuffState [0x00#8, 0x7D#8, 0x33#8, 0x05#8] 1#10))).map (fun r => (r.rbyte, r.rnext)) =
      some (some 0x13#8, some 3#10) := by decide

/-- V3.6: `DESTUFF [41, 7D], 1` is TruncatedFrame, and no other result is written. -/
theorem test_destuff_truncated :
    results (step (destuffState [0x41#8, 0x7D#8] 1#10)) = some (errorResult 5#4) := by decide

/-- V5.8: `ENCODE 0x7E, 0x7D, [7E]`. -/
theorem test_encode_escapes :
    (results (step (encodeState 0x7E#8 0x7D#8 [0x7E#8]))).map (fun r => (r.outlen, r.outBuf)) =
      some (some 10#10, [(0, 0x7E#8), (1, 0x7D#8), (2, 0x5E#8), (3, 0x7D#8), (4, 0x5D#8), (5, 0x01#8), (6, 0x7D#8),
        (7, 0x5E#8), (8, 0x85#8), (9, 0x7E#8)]) := by decide

/-- V5.10: `ENCODE 0x00, 0x00, len=256` is PayloadTooLarge. -/
theorem test_encode_too_large : results (exec .encode (lengthState 256#16)) = some (errorResult 1#4) := by decide

/-- V1.4: the source's worked frame. -/
theorem test_decode_frame :
    (results (step (decodeState frameS 7#8))).map (fun r => ([r.raddr, r.rcmd, r.rstatus, r.rdlen], r.rpay)) =
      some ([some 0x00#8, some 0xD1#8, some 0x00#8, some 0x07#8],
        [(0, 0x02#8), (1, 0x11#8), (2, 0x00#8), (3, 0x07#8), (4, 0x00#8), (5, 0x02#8), (6, 0x00#8)]) := by decide

/-- V6.9: a checksum without the status byte is ChecksumMismatch. -/
theorem test_decode_status_in_checksum :
    results (step (decodeState [0x7E#8, 0x00#8, 0x00#8, 0x43#8, 0x00#8, 0xFF#8, 0x7E#8] 0#8)) =
      some (errorResult 6#4) := by decide

/-- V3.1: `DESTUFF [7D, 31], 0`, by its symbol. -/
theorem test_esc11_in_destuff :
    (results (step (walkState (.destuff 0#10) (destuffState [0x7D#8, 0x31#8] 0#10)))).map (fun r => (r.rbyte, r.rnext)) =
      some (some 0x11#8, some 2#10) := by decide

/-- `7D 33` gives 0x13 and is two bytes long (R71, R125). -/
theorem test_esc13_in_destuff :
    (results (step (walkState (.destuff 0#10) (destuffState [0x7D#8, 0x33#8] 0#10)))).map (fun r => (r.rbyte, r.rnext)) =
      some (some 0x13#8, some 2#10) := by decide

/-- V6.10: the escaped checksum `7D 5D` is 0x7D and leads to STOP. -/
theorem test_esc7D_in_checksum :
    (after (step (walkState (.checksum 5#10 ⟨0x00#8, 0x82#8, 0x00#8, 0x00#8⟩ [])
      (decodeState [0x7E#8, 0x00#8, 0x82#8, 0x00#8, 0x00#8, 0x7D#8, 0x5D#8, 0x7E#8] 0#8)))).map State.walk =
      some (some (.stop 7#10 ⟨0x00#8, 0x82#8, 0x00#8, 0x00#8⟩ [])) := by decide

/-- V3.2: `DESTUFF [7D, 5E], 0`, by its symbol. -/
theorem test_esc7E_in_destuff :
    (results (step (walkState (.destuff 0#10) (destuffState [0x7D#8, 0x5E#8] 0#10)))).map (fun r => (r.rbyte, r.rnext)) =
      some (some 0x7E#8, some 2#10) := by decide

/-- V6.23: in the payload `7D 00` is 0x20, and CHECKSUM follows the one payload byte. -/
theorem test_escNoncanonical_in_payload :
    (after (step (walkState (.payload 5#10 ⟨0x00#8, 0x03#8, 0x00#8, 0x01#8⟩ [])
      (decodeState [0x7E#8, 0x00#8, 0x03#8, 0x00#8, 0x01#8, 0x7D#8, 0x00#8, 0xDB#8, 0x7E#8] 1#8)))).map State.walk =
      some (some (.checksum 7#10 ⟨0x00#8, 0x03#8, 0x00#8, 0x01#8⟩ [0x20#8])) := by decide

/-- The marker passes START, and the header begins at 1 (R174, R175). -/
theorem test_flag_at_start :
    (after (step (walkState (.start 0#10) (decodeState frameS 7#8)))).map State.walk =
      some (some (.header 1#10 [])) := by decide

/-- V6.7: the stop marker ends the DECODE of an empty response in success. -/
theorem test_flag_at_stop :
    (results (step (walkState (.stop 6#10 ⟨0x00#8, 0x00#8, 0x00#8, 0x00#8⟩ [])
      (decodeState [0x7E#8, 0x00#8, 0x00#8, 0x00#8, 0x00#8, 0xFF#8, 0x7E#8] 0#8)))).map
        (fun r => (r.rstate, r.rdlen, r.rpay)) = some (1#2, some 0x00#8, []) := by decide

/-- V6.24: a bare 0x7E inside the header is data. -/
theorem test_literal_marker_in_header :
    (after (step (walkState (.header 2#10 [0x00#8])
      (decodeState [0x7E#8, 0x00#8, 0x7E#8, 0x00#8, 0x00#8, 0x81#8, 0x7E#8] 0#8)))).map State.walk =
      some (some (.header 3#10 [0x00#8, 0x7E#8])) := by decide

/-- V6.19: a literal where the stop marker should be is MissingStopMarker. -/
theorem test_literal_at_stop :
    results (exec (.literal 0x00#8) (walkState (.stop 6#10 ⟨0x00#8, 0x00#8, 0x00#8, 0x00#8⟩ []) State.reset)) =
      some (errorResult 4#4) := by decide

/-! ### Witnesses: for each statement with hypotheses, a state and operands that meet them, clause by clause -/

/-- The invariant of a state between operations whose results are blank. -/
theorem inv_of_blank {s : State} (h1 : s.req.inBuf.wf 255 = true) (h2 : s.req.rawBuf.wf 522 = true)
    (h3 : s.res = ResRegs.blank) (h4 : s.walk = none) : s.Inv := by
  refine ⟨h1, h2, ?_, ?_, fun _ => h3, by simp [h4]⟩
  · rw [h3]; exact ⟨by decide, by simp [ResRegs.blank], rfl, rfl⟩
  · simp [h3, ResRegs.blank]

theorem witness_ResetLeavesNoValueButIdle :
    ResName.err ≠ .rstate ∧ (decodeState frameS 7#8).walk = none ∧ decodeState frameS 7#8 ≠ State.reset := by decide

theorem witness_StepKeepsInvariant :
    (decodeState frameS 7#8).Inv ∧ ∃ t, step (decodeState frameS 7#8) = .next t :=
  ⟨inv_of_blank (by decide) (by decide) rfl rfl, _, rfl⟩

theorem witness_HostActionKeepsInvariant :
    (decodeState frameS 7#8).Inv ∧ (∃ t, act (.writeRaw 521 0x7D#8) (decodeState frameS 7#8) = .next t) ∧
    (∃ t, act (.writeIn 254 0x7D#8) (decodeState frameS 7#8) = .next t) ∧
    ∃ t, act .issue (decodeState frameS 7#8) = .next t :=
  ⟨inv_of_blank (by decide) (by decide) rfl rfl, ⟨_, rfl⟩, ⟨_, rfl⟩, _, rfl⟩

theorem witness_NoOperationIsLeftInProgress : ∃ t, act .issue (inState 1#3 [0x7E#8]) = .next t := ⟨_, rfl⟩

theorem witness_CellWriteThenRead :
    (0 : Nat) ≠ 254 ∧ 254 < 255 ∧ Memory.wf 255 (Memory.ofBytes [0x01#8, 0x02#8]) = true := by decide

theorem witness_OpSelectsTheOperation :
    (∀ o, (opState o).walk = none ∧ (opState o).req.op = o) ∧ 5 ≤ (5#3 : BitVec 3).toNat ∧
    5 ≤ (7#3 : BitVec 3).toNat := ⟨fun _ => ⟨rfl, rfl⟩, by decide, by decide⟩

theorem witness_StepRunsTheDecodedInstruction :
    ((opState (some 4#3)).walk = none ∧ (opState (some 4#3)).req.op = some 4#3 ∧ decodeOp 4#3 = .ok .decode) ∧
    (let s := walkState (.destuff 0#10) (destuffState [0x7D#8, 0x31#8] 0#10)
     s.walk = some (.destuff 0#10) ∧ s.req.rawlen = some 2#10 ∧ (2#10 : BitVec 10).toNat ≤ 522 ∧
     (Walk.destuff 0#10).cursor.toNat + [0x7D#8, 0x31#8].length ≤ (2#10 : BitVec 10).toNat ∧
     (∀ k, k < [0x7D#8, 0x31#8].length →
       s.req.rawBuf.read ((Walk.destuff 0#10).cursor.toNat + k) = [0x7D#8, 0x31#8][k]?) ∧
     decodeWire (Walk.destuff 0#10).position [0x7D#8, 0x31#8] = .ok (.esc11, [])) :=
  ⟨⟨rfl, rfl, rfl⟩, rfl, rfl, by decide, by decide, by decide, rfl⟩

theorem witness_DecodeOfEncodeIsTheInstruction :
    (Instr.escNoncanonical 0x00#8).wf = true ∧ (Instr.escNoncanonical 0xFF#8).wf = true ∧
    (Instr.literal 0x7C#8).wf = true ∧ Instr.encode.wf = true := by decide

theorem witness_EncodeOfDecodeIsTheWord :
    decodeOp 0#3 = .ok .cksum ∧ decodeWire .field [0x7D#8, 0x32#8, 0x00#8] = .ok (.escNoncanonical 0x32#8, [0x00#8]) ∧
    decodeWire .marker [0x7E#8] = .ok (.flag, []) := ⟨rfl, rfl, rfl⟩

theorem witness_SymbolLengthByFirstByte : (0x7E#8 : Byte) ≠ 0x7D#8 ∧ (0x7D#8 : Byte) ≠ 0x7E#8 := by decide

/-- The same request after reset and after a failed DECODE. -/
theorem witness_ReportDependsOnRequestOnly :
    let s := inState 1#3 [0x7E#8]
    let s' := { s with res := errorResult 6#4 }
    s.walk = none ∧ s'.walk = none ∧ s.req = s'.req ∧ s ≠ s' := by decide

/-- Two states that agree on the operands of each operation and differ elsewhere. -/
theorem witness_OperationReadsOnlyItsOperands :
    let extra := fun s : State => { s with req := { s.req with cur := some 9#10, addr := some 1#8 }, res := errorResult 6#4 }
    SameOperands .cksum (cksumState 1#8 2#8 [3#8]) (extra (cksumState 1#8 2#8 [3#8])) ∧
    SameOperands .stuff (inState 1#3 [3#8]) (extra (inState 1#3 [3#8])) ∧
    SameOperands .destuff (destuffState [0x41#8] 0#10)
      { destuffState [0x41#8] 0#10 with res := errorResult 6#4 } ∧
    SameOperands .encode (encodeState 1#8 2#8 [3#8]) { encodeState 1#8 2#8 [3#8] with res := errorResult 6#4 } ∧
    SameOperands .decode (decodeState frameS 7#8) (extra (decodeState frameS 7#8)) := by
  simp [SameOperands, cksumState, inState, destuffState, encodeState, decodeState, decodeStateN, rawState]

theorem witness_OnlyNamedResultsAreWritten :
    Instr.decode.isRequest = true ∧ (∃ t, exec .decode (decodeState frameS 7#8) = .next t ∧ t.res.rstate = 1#2) ∧
    ∃ t, exec .decode (decodeState frameS 6#8) = .next t ∧ t.res.rstate = 2#2 :=
  ⟨rfl, ⟨_, rfl, rfl⟩, _, rfl, rfl⟩

theorem witness_ErrorCodesOfEachOperation :
    (∃ t, exec .encode (lengthState 256#16) = .next t ∧ t.res.err = some 1#4) ∧
    (∃ t, exec .destuff (destuffState [] 0#10) = .next t ∧ t.res.err = some 5#4) ∧
    (∃ t, exec .decode (decodeState [] 0#8) = .next t ∧ t.res.err = some 2#4) ∧
    ∃ t, exec .decode (decodeState frameS 6#8) = .next t ∧ t.res.err = some 7#4 :=
  ⟨⟨_, rfl, rfl⟩, ⟨_, rfl, rfl⟩, ⟨_, rfl, rfl⟩, _, rfl, rfl⟩

/-- Any bytes, up to 255 of them, can be presented in `IN`. -/
theorem inState_input (op : BitVec 3) {p : List Byte} (h : p.length ≤ 255) : (inState op p).Input p :=
  ⟨h, rfl, fun k _ => Memory.read_ofBytes p k⟩

theorem cksumState_input (hs dl : Byte) {p : List Byte} (h : p.length ≤ 255) : (cksumState hs dl p).Input p :=
  ⟨h, rfl, fun k _ => Memory.read_ofBytes p k⟩

theorem encodeState_input (a c : Byte) {p : List Byte} (h : p.length ≤ 255) : (encodeState a c p).Input p :=
  ⟨h, rfl, fun k _ => Memory.read_ofBytes p k⟩

/-- A state of this file presents the bytes `f` in `RAW`, `RAWLEN` = n and `MAXLEN` = m to DECODE. -/
def Presented (f : List Byte) (n : Nat) (m : Byte) : Prop :=
  (decodeStateN f n m).Raw f n ∧ (decodeStateN f n m).req.maxlen = some m

/-- Any bytes, up to 522 of them, can be presented in `RAW`, with `RAWLEN` at or beyond their number. -/
theorem presented {f : List Byte} {n : Nat} (m : Byte) (h : f.length ≤ n) (hn : n ≤ 522) : Presented f n m :=
  ⟨⟨h, hn, rfl, fun k _ => Memory.read_ofBytes f k⟩, rfl⟩

/-- 255 bytes, the most `IN` takes. -/
theorem witness_CksumWritesTheChecksum :
    (let s := cksumState 0x00#8 0xFF#8 (full 0xFF#8)
     s.Input (full 0xFF#8) ∧ s.req.hsum = some 0x00#8 ∧ s.req.dlen = some 0xFF#8) ∧
    ((lengthState 256#16).req.inlen = some 256#16 ∧ 255 < (256#16 : BitVec 16).toNat) :=
  ⟨⟨cksumState_input _ _ (full_length _), rfl, rfl⟩, rfl, by decide⟩

theorem witness_CksumIgnoresOrderAndPrereduction : [0x01#8, 0x03#8].Perm [0x03#8, 0x01#8] := .swap _ _ _

theorem witness_CksumSensitivity : (0x80#8 : Byte) ≠ 0#8 := by decide

theorem witness_StuffedFieldOfEachByte : isReserved 0x12#8 = false ∧ isReserved 0x7F#8 = false := by decide

theorem witness_StuffWritesTheStuffedBytes :
    (inState 1#3 (full 0x7E#8)).Input (full 0x7E#8) ∧
    (lengthState 256#16).req.inlen = some 256#16 ∧ 255 < (256#16 : BitVec 16).toNat :=
  ⟨inState_input _ (full_length _), rfl, by decide⟩

theorem witness_StuffOutputFits : ∃ t, exec .stuff (inState 1#3 [0x7E#8]) = .next t := ⟨_, rfl⟩

theorem witness_StuffedStreamHoldsNoMarker : (stuff [0x7E#8])[0]? = some 0x7D#8 := rfl

theorem witness_StuffedStreamParsesUniquely :
    IsField [0x7D#8, 0x7D#8] 0x5D#8 ∧ IsField [0x7E#8] 0x7E#8 :=
  ⟨.inr ⟨0x7D#8, rfl, rfl⟩, .inl ⟨by decide, rfl⟩⟩

theorem witness_DestuffOfStuffRoundTrip : [0x7E#8, 0x01#8][0]? = some 0x7E#8 := rfl

/-- A field that ends exactly at `RAWLEN`; `CUR` = `RAWLEN`; the escape in the last byte; `RAWLEN` = 523. -/
theorem witness_DestuffReadsOneField :
    (let s := destuffState [0x41#8, 0x7D#8, 0x00#8] 1#10
     3 ≤ 522 ∧ s.req.rawlen = some (BitVec.ofNat 10 3) ∧ s.req.cur = some 1#10 ∧
     (1#10 : BitVec 10).toNat + [0x7D#8, 0x00#8].length ≤ 3 ∧
     (∀ k, k < [0x7D#8, 0x00#8].length → s.req.rawBuf.read ((1#10 : BitVec 10).toNat + k) = [0x7D#8, 0x00#8][k]?) ∧
     IsField [0x7D#8, 0x00#8] 0x20#8) ∧
    ((destuffState [0x41#8] 1#10).req.rawlen = some (BitVec.ofNat 10 1) ∧ 1 ≤ (1#10 : BitVec 10).toNat) ∧
    ((destuffState [0x7D#8] 0#10).req.rawlen = some (BitVec.ofNat 10 1) ∧ (0#10 : BitVec 10).toNat + 1 = 1 ∧
      (destuffState [0x7D#8] 0#10).req.rawBuf.read (0#10 : BitVec 10).toNat = some 0x7D#8) ∧
    ((rawLengthState 523#10).req.rawlen = some 523#10 ∧ 522 < (523#10 : BitVec 10).toNat) :=
  ⟨⟨by decide, rfl, rfl, by decide, by decide, .inr ⟨0x00#8, rfl, rfl⟩⟩, ⟨rfl, by decide⟩, ⟨rfl, rfl, rfl⟩, rfl,
    by decide⟩

theorem witness_EncodeWritesTheTransmitFrame :
    ((encodeState 0x11#8 0x13#8 (full 0x7E#8)).Input (full 0x7E#8) ∧
      (encodeState 0x11#8 0x13#8 (full 0x7E#8)).req.addr = some 0x11#8 ∧ (encodeState 0x11#8 0x13#8 (full 0x7E#8)).req.cmd = some 0x13#8) ∧
    (∃ t, exec .encode (encodeState 0x00#8 0x00#8 []) = .next t) ∧ (∃ t, exec .encode (lengthState 65535#16) = .next t) ∧
    (lengthState 256#16).req.inlen = some 256#16 ∧ 255 < (256#16 : BitVec 16).toNat :=
  ⟨⟨encodeState_input _ _ (full_length _), rfl, rfl⟩, ⟨_, rfl⟩, ⟨_, rfl⟩, rfl, by decide⟩

/-- `ADDR`, `CMD` and `IN` are ⊥ here. -/
theorem witness_EncodePayloadTooLarge :
    (lengthState 256#16).req.inlen = some 256#16 ∧ 255 < (256#16 : BitVec 16).toNat ∧
    (lengthState 65535#16).req.inlen = some 65535#16 ∧ 255 < (65535#16 : BitVec 16).toNat := by decide

theorem witness_EncodeMarkersStandOnlyAtTheEnds :
    ∃ t, exec .encode (encodeState 0x7E#8 0x7D#8 [0x7E#8]) = .next t ∧ t.res.rstate = 1#2 := ⟨_, rfl, rfl⟩

theorem witness_EncodedFrameSize :
    (encodeState 0x7E#8 0x7D#8 (full 0x7E#8)).Input (full 0x7E#8) ∧
    (encodeState 0x7E#8 0x7D#8 (full 0x7E#8)).req.addr = some 0x7E#8 ∧
    (encodeState 0x7E#8 0x7D#8 (full 0x7E#8)).req.cmd = some 0x7D#8 ∧
    ∃ t, exec .encode (lengthState 256#16) = .next t ∧ t.res.err ≠ none :=
  ⟨encodeState_input _ _ (full_length _), rfl, rfl, _, rfl, by decide⟩

theorem witness_ReceiveFrameSize : (full 0x7E#8).length ≤ 255 := full_length _

/-- `RAWLEN` = 6, and `RAW` is ⊥. -/
theorem witness_DecodeFrameTooShort :
    6 < 7 ∧ (decodeStateN [] 6 7#8).req.rawlen = some (BitVec.ofNat 10 6) ∧
    (decodeStateN [] 6 7#8).req.maxlen = some 7#8 := by decide

theorem witness_DecodeMissingStartMarker :
    Presented [0x7D#8] 7 7#8 ∧ 7 ≤ 7 ∧ (0x7D#8 : Byte) ≠ 0x7E#8 :=
  ⟨presented _ (by decide) (by decide), by decide, by decide⟩

/-- V6.11 and a lone escape in the header; V6.13; V6.18 and V6.12. -/
theorem witness_DecodeTruncatedFrame :
    (let w := stuff [0x11#8, 0x11#8, 0x11#8]
     FieldsOf w [0x11#8, 0x11#8, 0x11#8] ∧ [0x11#8, 0x11#8, 0x11#8].length < 4 ∧ 7 ≤ (0x7E#8 :: w ++ []).length ∧ 
     7 ≤ (0x7E#8 :: w ++ [0x7D#8]).length ∧ Presented (0x7E#8 :: w ++ []) (0x7E#8 :: w ++ []).length 7#8 ∧
     Presented (0x7E#8 :: w ++ [0x7D#8]) (0x7E#8 :: w ++ [0x7D#8]).length 7#8) ∧
    (let w := stuff ([0x00#8, 0xD1#8, 0x00#8, 0x07#8] ++ [0x02#8])
     FieldsOf w ([0x00#8, 0xD1#8, 0x00#8, 0x07#8] ++ [0x02#8]) ∧ [0x02#8].length < (0x07#8 : Byte).toNat ∧
     [0x02#8].length < (7#8 : Byte).toNat ∧
     7 ≤ w.length + 2 ∧ Presented (0x7E#8 :: w ++ [0x7D#8]) (w.length + 2) 7#8) ∧
    (let w := stuff ([0x00#8, 0x03#8, 0x00#8, 0x02#8] ++ [0xAA#8, 0xBB#8])
     FieldsOf w ([0x00#8, 0x03#8, 0x00#8, 0x02#8] ++ [0xAA#8, 0xBB#8]) ∧
     [0xAA#8, 0xBB#8].length = (0x02#8 : Byte).toNat ∧ [0xAA#8, 0xBB#8].length ≤ (7#8 : Byte).toNat ∧
     7 ≤ (0x7E#8 :: w ++ []).length ∧
     Presented (0x7E#8 :: w ++ []) (0x7E#8 :: w ++ []).length 7#8) ∧
    (let w := stuff ([0x00#8, 0x00#8, 0x11#8, 0x00#8] ++ [])
     FieldsOf w ([0x00#8, 0x00#8, 0x11#8, 0x00#8] ++ []) ∧ ([] : List Byte).length = (0x00#8 : Byte).toNat ∧
     ([] : List Byte).length ≤ (7#8 : Byte).toNat ∧ 7 ≤ (0x7E#8 :: w ++ [0x7D#8]).length ∧
     Presented (0x7E#8 :: w ++ [0x7D#8]) (0x7E#8 :: w ++ [0x7D#8]).length 7#8) :=
  ⟨⟨stuff_fieldsOf _, by decide, by decide, by decide, presented _ (by decide) (by decide), presented _ (by decide) (by decide)⟩,
    ⟨stuff_fieldsOf _, by decide, by decide, by decide, presented _ (by decide) (by decide)⟩,
    ⟨stuff_fieldsOf _, by decide, by decide, by decide, presented _ (by decide) (by decide)⟩,
    stuff_fieldsOf _, by decide, by decide, by decide, presented _ (by decide) (by decide)⟩

/-- V6.14 and V6.15 (`MAXLEN` reached), and V6.16 (`RAW` ends). -/
theorem witness_DecodeIncompleteResponse :
    (let w := stuff ([0x00#8, 0xD1#8, 0x00#8, 0x07#8] ++ [])
     FieldsOf w ([0x00#8, 0xD1#8, 0x00#8, 0x07#8] ++ []) ∧ ([] : List Byte).length < (0x07#8 : Byte).toNat ∧
     7 ≤ 7 ∧ Presented (0x7E#8 :: w) 7 0#8 ∧
     ([] : List Byte).length = (0#8 : Byte).toNat) ∧
    (let w := stuff ([0x00#8, 0xD1#8, 0x00#8, 0x07#8] ++ [0x02#8, 0x11#8, 0x00#8])
     FieldsOf w ([0x00#8, 0xD1#8, 0x00#8, 0x07#8] ++ [0x02#8, 0x11#8, 0x00#8]) ∧
     [0x02#8, 0x11#8, 0x00#8].length < (0x07#8 : Byte).toNat ∧ 7 ≤ 9 ∧ Presented (0x7E#8 :: w) 9 7#8 ∧
     [0x02#8, 0x11#8, 0x00#8].length ≤ (7#8 : Byte).toNat ∧ 9 = w.length + 1) :=
  ⟨⟨stuff_fieldsOf _, by decide, by decide, presented _ (by decide) (by decide), by decide⟩,
    stuff_fieldsOf _, by decide, by decide, presented _ (by decide) (by decide), by decide, by decide⟩

/-- V6.9, the stop marker left out. -/
theorem witness_DecodeChecksumMismatch :
    let w := stuff ([0x00#8, 0x00#8, 0x43#8, 0x00#8] ++ [] ++ [0xFF#8])
    FieldsOf w ([0x00#8, 0x00#8, 0x43#8, 0x00#8] ++ [] ++ [0xFF#8]) ∧ ([] : List Byte).length = (0x00#8 : Byte).toNat ∧
    ([] : List Byte).length ≤ (0#8 : Byte).toNat ∧ 7 ≤ 7 ∧
    (0xFF#8 : Byte) ≠ cksum (0x00#8 + 0x00#8 + 0x43#8) 0x00#8 [] ∧ Presented (0x7E#8 :: w) 7 0#8 :=
  ⟨stuff_fieldsOf _, by decide, by decide, by decide, by decide, presented _ (by decide) (by decide)⟩

/-- No byte after the checksum, and 0x7D there (V6.19). -/
theorem witness_DecodeMissingStopMarker :
    (let w := stuff ([0x00#8, 0x82#8, 0x00#8, 0x00#8] ++ [] ++ [cksum (0x00#8 + 0x82#8 + 0x00#8) 0x00#8 []])
     FieldsOf w ([0x00#8, 0x82#8, 0x00#8, 0x00#8] ++ [] ++ [cksum (0x00#8 + 0x82#8 + 0x00#8) 0x00#8 []]) ∧
     ([] : List Byte).length = (0x00#8 : Byte).toNat ∧ ([] : List Byte).length ≤ (0#8 : Byte).toNat ∧
     7 = w.length + 1 ∧ 7 ≤ 7 ∧ 7 ≤ 8 ∧ Presented (0x7E#8 :: w ++ []) 7 0#8 ∧
     (0x7D#8 : Byte) ≠ 0x7E#8 ∧ Presented (0x7E#8 :: w ++ [0x7D#8]) 8 0#8) :=
  ⟨stuff_fieldsOf _, by decide, by decide, by decide, by decide, by decide, presented _ (by decide) (by decide), by decide,
    presented _ (by decide) (by decide)⟩

/-- V6.23, with trailing cells that are ⊥. -/
theorem witness_DecodeAcceptsEveryGoodFrame :
    let w := stuff [0x00#8, 0x03#8, 0x00#8, 0x01#8] ++ [0x7D#8, 0x00#8] ++ stuff [0xDB#8]
    FieldsOf w ([0x00#8, 0x03#8, 0x00#8, 0x01#8] ++ [0x20#8] ++ [cksum (0x00#8 + 0x03#8 + 0x00#8) 0x01#8 [0x20#8]]) ∧
    [0x20#8].length = (0x01#8 : Byte).toNat ∧ [0x20#8].length ≤ (1#8 : Byte).toNat ∧
    Presented (0x7E#8 :: w ++ [0x7E#8]) 522 1#8 := by
  refine ⟨?_, by decide, by decide, presented _ (by decide) (by decide)⟩
  exact ((stuff_fieldsOf _).append (fieldsOf_singleton.mpr (.inr ⟨0x00#8, rfl, rfl⟩))).append (stuff_fieldsOf [0xDB#8])

theorem witness_DecodeOfReceiveFrameRoundTrip :
    [0x7E#8].length ≤ 255 ∧ [0x7E#8].length ≤ (1#8 : Byte).toNat ∧
    Presented (receiveFrame 0x11#8 0x13#8 0x7D#8 [0x7E#8]) 522 1#8 :=
  ⟨by decide, by decide, presented _ (by decide) (by decide)⟩

theorem witness_DecodeSuccessMeansGoodFrame :
    ∃ t, exec .decode (decodeState frameS 7#8) = .next t ∧ t.res.rstate = 1#2 := ⟨_, rfl, rfl⟩

theorem witness_DecodeEndsOnEveryBuffer :
    Presented [] ([] : List Byte).length 0#8 ∧ Presented frameS frameS.length 255#8 :=
  ⟨presented _ (by decide) (by decide), presented _ (by decide) (by decide)⟩

/-- The checksum field of V6.10 is `7D 5D`; bit 7 of its second byte is changed. -/
theorem witness_DecodeSeesASingleBitError :
    let field := (stuffByte (receiveChecksum 0x00#8 0x82#8 0x00#8 [])).set 1 (0x5D#8 ^^^ (1#8 <<< 7))
    let f := receiveBody 0x00#8 0x82#8 0x00#8 [] ++ field ++ [0x7E#8]
    (stuffByte (receiveChecksum 0x00#8 0x82#8 0x00#8 []))[1]? = some 0x5D#8 ∧ 7 < 8 ∧
    ([] : List Byte).length ≤ 255 ∧ ([] : List Byte).length ≤ (0#8 : Byte).toNat ∧ Presented f f.length 0#8 :=
  ⟨by decide, by decide, by decide, by decide, presented _ (by decide) (by decide)⟩

theorem witness_RequestsOutOfRangeAreRefused :
    ((lengthState 256#16).req.inlen = some 256#16 ∧ 255 < (256#16 : BitVec 16).toNat) ∧
    ((rawLengthState 523#10).req.rawlen = some 523#10 ∧ 522 < (523#10 : BitVec 10).toNat) := by decide

/-- One state for each clause, with the one place ⊥ that the clause names. -/
theorem witness_MissingOperandFaults :
    State.reset.req.inlen = none ∧ State.reset.req.rawlen = none ∧
    ((inState 0#3 [1#8]).Input [1#8] ∧ (inState 0#3 [1#8]).req.hsum = none ∧ (inState 0#3 [1#8]).req.addr = none) ∧
    (let s := { inState 0#3 [1#8] with req := { (inState 0#3 [1#8]).req with hsum := some 0#8, addr := some 0#8 } }
     s.Input [1#8] ∧ s.req.hsum ≠ none ∧ s.req.dlen = none ∧ s.req.addr ≠ none ∧ s.req.cmd = none) ∧
    ((rawLengthState 522#10).Raw [] 522 ∧ (rawLengthState 522#10).req.cur = none ∧
      (rawLengthState 522#10).req.maxlen = none) ∧
    (let s := { rawLengthState 1#10 with req := { (rawLengthState 1#10).req with cur := some 0#10 } }
     s.req.rawlen = some 1#10 ∧ s.req.cur = some 0#10 ∧ (0#10 : BitVec 10).toNat < (1#10 : BitVec 10).toNat ∧
     s.req.rawBuf.read (0#10 : BitVec 10).toNat = none) ∧
    ((decodeStateN [] 7 0#8).req.rawlen = some 7#10 ∧ (decodeStateN [] 7 0#8).req.rawBuf.read 0 = none) ∧
    (let s := { inState 0#3 [1#8] with req := { (inState 0#3 [1#8]).req with inlen := some 255#16 } }
     s.req.inlen = some 255#16 ∧ (255#16 : BitVec 16).toNat ≤ 255 ∧ [1#8].length < (255#16 : BitVec 16).toNat ∧
     (∀ k, k < [1#8].length → s.req.inBuf.read k = [1#8][k]?) ∧ s.req.inBuf.read [1#8].length = none) := by
  refine ⟨rfl, rfl, ⟨inState_input _ (by decide), rfl, rfl⟩, ⟨⟨by decide, rfl, by decide⟩, by decide, rfl, by decide, rfl⟩,
    ⟨⟨by decide, by decide, rfl, by simp⟩, rfl, rfl⟩, by decide, by decide, by decide⟩

/-- The cells after the first: the second cell of an escape in DESTUFF; a header cell, the second cell of the first field and
the first cell of the fourth; a payload cell; a checksum cell; the stop cell. -/
theorem witness_MissingOperandFaults_later_cells :
    (let s := { rawState 2#3 [0x7D#8] 2 with req := { (rawState 2#3 [0x7D#8] 2).req with cur := some 0#10 } }
     s.req.rawlen = some 2#10 ∧ (2#10 : BitVec 10).toNat ≤ 522 ∧ s.req.cur = some 0#10 ∧
     (0#10 : BitVec 10).toNat + 1 < (2#10 : BitVec 10).toNat ∧
     s.req.rawBuf.read (0#10 : BitVec 10).toNat = some 0x7D#8 ∧
     s.req.rawBuf.read ((0#10 : BitVec 10).toNat + 1) = none) ∧
    (let w := stuff []
     FieldsOf w [] ∧ ([] : List Byte).length < 4 ∧ 7 ≤ 7 ∧ Presented (0x7E#8 :: w ++ [0x7D#8]) 7 1#8 ∧
     (0x7E#8 :: w ++ [0x7D#8]).length < 7 ∧
     (decodeStateN (0x7E#8 :: w ++ [0x7D#8]) 7 1#8).req.rawBuf.read (0x7E#8 :: w ++ [0x7D#8]).length = none) ∧
    (let w := stuff [0x00#8, 0x00#8, 0x00#8]
     FieldsOf w [0x00#8, 0x00#8, 0x00#8] ∧ [0x00#8, 0x00#8, 0x00#8].length < 4 ∧
     Presented (0x7E#8 :: w ++ []) 7 1#8 ∧ (0x7E#8 :: w ++ []).length < 7 ∧
     (decodeStateN (0x7E#8 :: w ++ []) 7 1#8).req.rawBuf.read (0x7E#8 :: w ++ []).length = none) ∧
    (let w := stuff ([0x00#8, 0x00#8, 0x00#8, 0x01#8] ++ [])
     FieldsOf w ([0x00#8, 0x00#8, 0x00#8, 0x01#8] ++ []) ∧ ([] : List Byte).length < (0x01#8 : Byte).toNat ∧
     ([] : List Byte).length < (1#8 : Byte).toNat ∧ Presented (0x7E#8 :: w ++ []) 7 1#8 ∧
     (0x7E#8 :: w ++ []).length < 7 ∧
     (decodeStateN (0x7E#8 :: w ++ []) 7 1#8).req.rawBuf.read (0x7E#8 :: w ++ []).length = none) ∧
    (let w := stuff ([0x00#8, 0x00#8, 0x00#8, 0x00#8] ++ [])
     FieldsOf w ([0x00#8, 0x00#8, 0x00#8, 0x00#8] ++ []) ∧ ([] : List Byte).length = (0x00#8 : Byte).toNat ∧
     ([] : List Byte).length ≤ (0#8 : Byte).toNat ∧ Presented (0x7E#8 :: w ++ [0x7D#8]) 8 0#8 ∧
     (0x7E#8 :: w ++ [0x7D#8]).length < 8 ∧
     (decodeStateN (0x7E#8 :: w ++ [0x7D#8]) 8 0#8).req.rawBuf.read (0x7E#8 :: w ++ [0x7D#8]).length = none) ∧
    (let w := stuff ([0x00#8, 0x00#8, 0x00#8, 0x00#8] ++ [] ++ [cksum (0x00#8 + 0x00#8 + 0x00#8) 0x00#8 []])
     FieldsOf w ([0x00#8, 0x00#8, 0x00#8, 0x00#8] ++ [] ++ [cksum (0x00#8 + 0x00#8 + 0x00#8) 0x00#8 []]) ∧
     Presented (0x7E#8 :: w) 7 0#8 ∧ (0x7E#8 :: w).length < 7 ∧
     (decodeStateN (0x7E#8 :: w) 7 0#8).req.rawBuf.read (0x7E#8 :: w).length = none) :=
  ⟨by decide,
    ⟨stuff_fieldsOf _, by decide, by decide, presented _ (by decide) (by decide), by decide, rfl⟩,
    ⟨stuff_fieldsOf _, by decide, presented _ (by decide) (by decide), by decide, rfl⟩,
    ⟨stuff_fieldsOf _, by decide, by decide, presented _ (by decide) (by decide), by decide, rfl⟩,
    ⟨stuff_fieldsOf _, by decide, by decide, presented _ (by decide) (by decide), by decide, rfl⟩,
    stuff_fieldsOf _, presented _ (by decide) (by decide), by decide, rfl⟩

/-- The last cell of `IN` and of `RAW`. -/
theorem witness_HostWriteSetsOnlyItsPlace :
    ((HostAction.writeIn 254 0xFF#8).target = some (.cell .inSpace 254, 255) ∧
      (Place.cell .inSpace 254).present = true) ∧
    ((HostAction.writeRaw 521 0xFF#8).target = some (.cell .rawSpace 521, 255) ∧
      (Place.cell .rawSpace 521).present = true) ∧
    ((HostAction.writeOp 7#3).target = some (.req .op, 7) ∧ (Place.req .op).present = true) ∧
    State.reset.walk = none := by decide

theorem witness_ReadsHaveNoSideEffect :
    (∃ t, act (.read (.res .rstate)) State.reset = .next t) ∧
    (State.reset.walk = none ∧ (Place.res .rstate).present = true ∧ State.reset.value (.res .rstate) = some 0) ∧
    ∃ t, exec .cksum (cksumState 0#8 0#8 []) = .next t := ⟨⟨_, rfl⟩, ⟨rfl, rfl, rfl⟩, _, rfl⟩

theorem witness_HostAccessRules :
    (State.reset.walk = none ∧ (HostAction.writeMaxlen 255#8).target = some (.req .maxlen, 255) ∧
      (Place.req .maxlen).present = true) ∧
    (walkState (.start 0#10) State.reset).walk ≠ none ∧
    ((opState (some 5#3)).walk = none ∧ (opState (some 5#3)).req.op = some 5#3 ∧ 5 ≤ (5#3 : BitVec 3).toNat) ∧
    ((Place.cell .outSpace 519).present = true ∧ State.reset.value (.cell .outSpace 519) = none) := by decide

theorem witness_CksumRequestRuns : (full 0xFF#8).length ≤ 255 ∧ State.reset.walk = none :=
  ⟨full_length _, rfl⟩

/-- A state between operations, and one more that presents the operands, of each form; for STUFF and ENCODE a full `IN`. -/
theorem witness_OtherRequestsRun :
    (full 0x7E#8).length ≤ 255 ∧ State.reset.walk = none ∧ 255 < (256#16 : BitVec 16).toNat ∧
    ((destuffState [0x7D#8, 0x31#8] 0#10).Raw [0x7D#8, 0x31#8] [0x7D#8, 0x31#8].length ∧
      (destuffState [0x7D#8, 0x31#8] 0#10).req.cur = some 0#10) ∧ Presented frameS frameS.length 7#8 :=
  ⟨full_length _, rfl, by decide, ⟨⟨by decide, by decide, rfl, fun k _ => Memory.read_ofBytes _ k⟩, rfl⟩,
    presented _ (by decide) (by decide)⟩

theorem witness_SymbolEndsADestuff :
    (Instr.escNoncanonical 0x00#8).wf = true ∧ encode (.escNoncanonical 0x00#8) = .wire [0x7D#8, 0x00#8] ∧
    IsField [0x7D#8, 0x00#8] 0x20#8 ∧ (walkState (.destuff 520#10) State.reset).walk = some (.destuff 520#10) :=
  ⟨by decide, rfl, .inr ⟨0x00#8, rfl, rfl⟩, rfl⟩

theorem witness_SymbolInHeader :
    Instr.esc7E.wf = true ∧ encode .esc7E = .wire [0x7D#8, 0x5E#8] ∧ IsField [0x7D#8, 0x5E#8] 0x7E#8 ∧
    (walkState (.header 5#10 [0x11#8, 0x13#8]) State.reset).walk = some (.header 5#10 [0x11#8, 0x13#8]) ∧
    [0x11#8, 0x13#8].length < 3 := ⟨by decide, rfl, .inr ⟨0x5E#8, rfl, rfl⟩, rfl, by decide⟩

/-- The three ends of HEADER: PAYLOAD, IncompleteResponse (`MAXLEN` = 0, and the cursor at `RAWLEN`) and CHECKSUM. -/
theorem witness_SymbolEndsTheHeader :
    (∀ b : Byte, b ≠ 0x7D#8 → (Instr.literal b).wf = true ∧ encode (.literal b) = .wire [b] ∧ IsField [b] b) ∧
    (let w := Walk.header 4#10 [0#8, 0#8, 0#8]
     (walkState w (decodeStateN [] 7 1#8)).walk = some w ∧
     (walkState w (decodeStateN [] 7 1#8)).req.rawlen = some 7#10 ∧ (7#10 : BitVec 10).toNat ≤ 522 ∧
     (walkState w (decodeStateN [] 7 1#8)).req.maxlen = some 1#8 ∧ 0 < (1#8 : Byte).toNat ∧
     (4#10 + BitVec.ofNat 10 1 : BitVec 10).toNat < (7#10 : BitVec 10).toNat) ∧
    (0#8 : Byte).toNat = 0 ∧ (5#10 : BitVec 10).toNat ≤ (4#10 + BitVec.ofNat 10 1 : BitVec 10).toNat := by
  refine ⟨fun b hb => ⟨by simpa [Instr.wf, Config.ESC] using hb, rfl, .inl ⟨hb, rfl⟩⟩, by decide, by decide, by decide⟩

/-- PAYLOAD goes on (D = 2), stops short (`MAXLEN` = 1, D = 2) and ends (D = 1). -/
theorem witness_SymbolInPayload :
    IsField [0x41#8] 0x41#8 ∧ (Instr.literal 0x41#8).wf = true ∧ encode (.literal 0x41#8) = .wire [0x41#8] ∧
    (∀ d m : Byte, let w := Walk.payload 5#10 ⟨0#8, 0#8, 0#8, d⟩ []
      (walkState w (decodeStateN [] 9 m)).walk = some w ∧ (walkState w (decodeStateN [] 9 m)).req.rawlen = some 9#10 ∧
      (walkState w (decodeStateN [] 9 m)).req.maxlen = some m) ∧
    (([] : List Byte).length + 1 < (2#8 : Byte).toNat ∧
      (5#10 + BitVec.ofNat 10 1 : BitVec 10).toNat < (9#10 : BitVec 10).toNat) ∧
    (1#8 : Byte).toNat ≤ ([] : List Byte).length + 1 :=
  ⟨.inl ⟨by decide, rfl⟩, by decide, rfl, fun _ _ => ⟨rfl, rfl, rfl⟩, by decide, by decide⟩

/-- The checksum of an all-zero header is 0xFF; 0xFE is another byte. -/
theorem witness_SymbolInChecksum :
    let h : Header := ⟨0#8, 0#8, 0#8, 0#8⟩
    (walkState (.checksum 5#10 h []) State.reset).walk = some (.checksum 5#10 h []) ∧
    (Instr.literal 0xFF#8).wf = true ∧ encode (.literal 0xFF#8) = .wire [0xFF#8] ∧ IsField [0xFF#8] 0xFF#8 ∧
    (0xFF#8 : Byte) = cksum (h.addr + h.cmd + h.status) h.dlen [] ∧
    (0xFE#8 : Byte) ≠ cksum (h.addr + h.cmd + h.status) h.dlen [] :=
  ⟨rfl, by decide, rfl, .inl ⟨by decide, rfl⟩, by decide, by decide⟩

theorem witness_FlagAtTheMarkers :
    (walkState (.start 0#10) State.reset).walk = some (.start 0#10) ∧
    (walkState (.stop 6#10 ⟨0#8, 0#8, 0#8, 0#8⟩ []) State.reset).walk = some (.stop 6#10 ⟨0#8, 0#8, 0#8, 0#8⟩ []) ∧
    encode .esc7E = .wire [0x7D#8, 0x5E#8] ∧ [0x7D#8, 0x5E#8].head? ≠ some 0x7E#8 := ⟨rfl, rfl, rfl, by decide⟩

theorem witness_SymbolOutsideAnOperationIsRefused :
    Instr.flag.isRequest = false ∧ (Instr.literal 0x41#8).isRequest = false ∧ State.reset.walk = none := by decide

/-- The branches of the openings: opened, ended at once (FrameTooShort), at a fault and refused. -/
theorem witness_SymbolBySymbolIsTheAtomicOperation :
    ((∃ t, openDecode (decodeState frameS 7#8) = .next t ∧ t.walk = some (.start 0#10)) ∧
      (∃ t, openDecode (decodeState [] 7#8) = .next t ∧ t.res = errorResult 2#4) ∧
      openDecode State.reset = .fault (.noValue (.req .rawlen)) ∧
      openDecode (rawLengthState 7#10) = .fault (.noValue (.req .maxlen)) ∧
      openDecode (rawLengthState 523#10) = .refused .rawTooLong) ∧
    ((∃ t, openDestuff (destuffState [0x41#8] 0#10) = .next t ∧ t.walk = some (.destuff 0#10)) ∧
      openDestuff State.reset = .fault (.noValue (.req .rawlen)) ∧
      openDestuff (rawLengthState 7#10) = .fault (.noValue (.req .cur)) ∧
      openDestuff (rawLengthState 523#10) = .refused .rawTooLong) :=
  ⟨⟨⟨_, rfl, rfl⟩, ⟨_, rfl, rfl⟩, rfl, rfl, rfl⟩, ⟨_, rfl, rfl⟩, rfl, rfl, rfl⟩

end Sys2Proof.Tests
end

section
/-! PROOFS. The request registers decide what an issue reports (R35), and a request out of range has no step (R24). -/

namespace Sys2Proof.Machine

/-! ### Reading the request: nothing but the request registers is looked at -/

theorem fetchOp_congr {s s' : State} (h : s.req = s'.req) : fetchOp s = fetchOp s' := by
  simp only [fetchOp, h]

theorem inputLength_congr {s s' : State} (h : s.req = s'.req) : inputLength s = inputLength s' := by
  simp only [inputLength, h]

theorem boundedInputLength_congr {s s' : State} (h : s.req = s'.req) :
    boundedInputLength s = boundedInputLength s' := by
  simp only [boundedInputLength, inputLength_congr h]

theorem rawLength_congr {s s' : State} (h : s.req = s'.req) : rawLength s = rawLength s' := by
  simp only [rawLength, h]

/-! ### The issue -/

/-- Between operations the next instruction is the one `OP` names (R21). -/
theorem fetch_of_idle {s : State} (h : s.walk = none) : fetch s = fetchOp s := by
  simp only [fetch, h]

/-- `OP` names no wire symbol (R80). -/
theorem decodeOp_isRequest {v : BitVec 3} {i : Instr} (h : decodeOp v = .ok i) : i.isRequest = true := by
  unfold decodeOp at h
  split_ifs at h <;> cases h <;> rfl

/-- An issue runs one of the five operations (R80, R81). -/
theorem fetchOp_isRequest {s : State} {i : Instr} (h : fetchOp s = .ok i) : i.isRequest = true := by
  unfold fetchOp at h
  split at h
  · cases h
  · split at h
    · cases h
      exact decodeOp_isRequest ‹_›
    · cases h

/-- A stop names itself, whatever the state it is met in. -/
theorem SameReport.halt {s s' : State} (e : Stop) : SameReport (halt s e) (halt s' e) := by
  cases e <;> rfl

/-- An operation's rule is a function of the request registers, so it reports the same on equal ones. A wire symbol's is
not: it reads the transient state. -/
theorem exec_sameReport_of_req_eq {i : Instr} {s s' : State} (hi : i.isRequest = true) (h : s.req = s'.req) :
    SameReport (exec i s) (exec i s') := by
  cases i with
  | cksum =>
    simp only [exec, execCksum, boundedInputLength_congr h, h]
    exact SameReport.conclude
  | stuff =>
    simp only [exec, execStuff, boundedInputLength_congr h, h]
    exact SameReport.conclude
  | destuff =>
    simp only [exec, execDestuff, rawLength_congr h, h]
    exact SameReport.conclude
  | encode =>
    simp only [exec, execEncode, inputLength_congr h, h]
    exact SameReport.conclude
  | decode =>
    simp only [exec, execDecode, rawLength_congr h, h]
    exact SameReport.conclude
  | esc11 | esc13 | esc7D | esc7E | escNoncanonical | flag | literal => cases hi

/-- Settles O13: both states fetch the same operation or the same stop, and either reports by the request alone. -/
theorem reportDependsOnRequestOnly : Obligations.ReportDependsOnRequestOnly := by
  unfold Obligations.ReportDependsOnRequestOnly
  intro s s' hw hw' hreq
  have hfetch : fetch s' = fetch s := by rw [fetch_of_idle hw, fetch_of_idle hw', fetchOp_congr hreq]
  simp only [step, hfetch]
  cases hf : fetch s with
  | ok i => exact exec_sameReport_of_req_eq (fetchOp_isRequest (fetch_of_idle hw ▸ hf)) hreq
  | error e => exact SameReport.halt e

/-! ### Requests out of range -/

/-- Settles O46: CKSUM, STUFF, DESTUFF and DECODE check the range as they read the length; ENCODE reads a length of any
value and raises its own error. -/
theorem requestsOutOfRangeAreRefused : Obligations.RequestsOutOfRangeAreRefused := by
  unfold Obligations.RequestsOutOfRangeAreRefused
  refine ⟨fun s n hlen hn => ?_, fun s n hlen hn => ?_⟩
  · have hrefused := boundedInputLength_above hlen hn
    refine ⟨by simp [exec, execCksum, hrefused], by simp [exec, execStuff, hrefused], ?_⟩
    rw [exec_encode_above hlen hn]
    exact endsInError_raised s .payloadTooLarge
  · have hrefused := rawLength_above hlen hn
    exact ⟨by simp [exec, execDestuff, hrefused], by simp [exec, execDecode, hrefused]⟩

end Sys2Proof.Machine
end

section
/-! PROOFS. A host read has no side effect, and an instruction writes no request register and no cell of `IN` or `RAW`
(R58). -/

namespace Sys2Proof.Machine

/-! ### Host reads -/

/-- A host read reports no state but the one it looked at. -/
theorem hostLook_next {p : Place} {s t : State} (h : hostLook p s = .next t) : t = s := by
  unfold hostLook at h
  split at h
  · exact (Host.Outcome.next.inj h).symm
  · cases h

/-- A host action answers a next state only between operations (R43, R241). -/
theorem act_next {a : HostAction} {s t : State} (h : act a s = .next t) : s.walk = none ∧ actBetween a s = .next t := by
  unfold act at h
  split at h
  next hw => exact ⟨hw, h⟩
  next => cases h

theorem act_read_next {p : Place} {s t : State} (h : act (.read p) s = .next t) : t = s :=
  hostLook_next (act_next h).2

theorem act_read_value {p : Place} {s : State} {v : Nat} (hw : s.walk = none) (hr : hostRead p s = .ok v) :
    act (.read p) s = .next s := by
  simp only [act_of_between hw, actBetween, hostLook, hr]

/-! ### What the request registers alone decide -/

theorem value_req_congr {s t : State} (h : t.req = s.req) (r : ReqName) : t.value (.req r) = s.value (.req r) := by
  cases r <;> simp only [State.value, h]

theorem value_cell_congr {s t : State} {b : Space} (h : t.buffer b = s.buffer b) (k : Nat) :
    t.value (.cell b k) = s.value (.cell b k) := by
  simp only [State.value, h]

/-- Settles O49: a read hands back the state it looked at, and every instruction ends with the request registers it began
with, `IN` and `RAW` among them. -/
theorem readsHaveNoSideEffect : Obligations.ReadsHaveNoSideEffect := by
  unfold Obligations.ReadsHaveNoSideEffect
  refine ⟨fun p s t h => ?_, fun p s v hw hp hv => ?_, fun i s t h r => ?_, fun i s t h k => ?_⟩
  · obtain rfl := act_read_next h
    exact ⟨rfl, rfl⟩
  · have hread := hostRead_value hp hv
    exact ⟨hread, act_read_value hw hread⟩
  · exact value_req_congr (exec_keeps_request h) r
  · have hreq := exec_keeps_request h
    exact ⟨value_cell_congr (b := .inSpace) (congrArg ReqRegs.inBuf hreq) k,
      value_cell_congr (b := .rawSpace) (congrArg ReqRegs.rawBuf hreq) k⟩

end Sys2Proof.Machine
end

section
/-! PROOFS. What the words of the block mean: a value of `OP` (R80, R81), the wire symbols by their first byte (R71, R72,
R120), and the frame that ENCODE writes (R75, R151). -/

namespace Sys2Proof.Machine

/-! ### ENCODE -/

/-- An input that is presented is within the range of R24. -/
theorem State.Input.inlen_le {s : State} {p : List Byte} {n : BitVec 16} (h : s.Input p) (hn : s.req.inlen = some n) :
    n.toNat ≤ 255 := by
  obtain ⟨hle, hinlen, -⟩ := h
  obtain rfl : BitVec.ofNat 16 p.length = n := Option.some.inj (hinlen.symm.trans hn)
  rw [BitVec.toNat_ofNat]
  exact (Nat.mod_le _ _).trans hle

/-- Success is no error: `RSTATE` tells them apart (R40). -/
theorem finish_res_ne_errorResult (r : ResRegs) (s : State) (code : BitVec 4) : (finish r s).res ≠ errorResult code :=
  fun h => absurd (congrArg ResRegs.rstate h) (by decide : OK ≠ 2#2)

/-- Settles O30: an ENCODE that ends has either finished on an input that was presented, so `INLEN` is at most 255, or
raised PayloadTooLarge on a larger `INLEN`. -/
theorem encodeWritesTheTransmitFrame : Obligations.EncodeWritesTheTransmitFrame := by
  unfold Obligations.EncodeWritesTheTransmitFrame
  refine ⟨fun s a c p hp ha hc => ?_, fun s t h => ?_, fun s n hinlen hn => ?_⟩
  · rw [exec_encode_of hp ha hc]
    exact endsWithOut_ok s _
  · rcases exec_encode_next h with ⟨p, a, c, hp, -, -, rfl⟩ | ⟨n, hinlen, hn, rfl⟩
    · have hnotAbove : ¬ ∃ n, s.req.inlen = some n ∧ 255 < n.toNat := fun ⟨_, hinlen, hn⟩ =>
        absurd hn (hp.inlen_le hinlen).not_gt
      exact ⟨iff_of_false (finish_res_ne_errorResult _ s _) hnotAbove, .inr rfl⟩
    · exact ⟨iff_of_true rfl ⟨n, hinlen, hn⟩, .inl rfl⟩
  · rw [exec_encode_above hinlen hn]
    exact endsInError_raised s .payloadTooLarge

/-! ### The operation an issue names -/

/-- An issue whose `OP` decodes runs the decoded operation (R80). -/
theorem step_of_decodeOp_ok {s : State} {v : BitVec 3} {i : Instr} (hw : s.walk = none) (hop : s.req.op = some v)
    (hd : decodeOp v = .ok i) : step s = exec i s := by
  simp only [step, fetch_of_idle hw, fetchOp, hop, hd]

/-- An issue with a reserved `OP` is refused (R81). -/
theorem step_of_op_reserved {s : State} {v : BitVec 3} (hw : s.walk = none) (hop : s.req.op = some v)
    (hv : 5 ≤ v.toNat) : step s = .refused (.reservedOp v) := by
  simp only [step, fetch_of_idle hw, fetchOp, hop, decodeOp_reserved v hv, halt_refused]

/-- An issue with `OP` = ⊥ is refused (R81). -/
theorem step_of_op_none {s : State} (hw : s.walk = none) (hop : s.req.op = none) :
    step s = .refused .noOperation := by
  simp only [step, fetch_of_idle hw, fetchOp, hop, halt_refused]

/-- Settles O7: the decoder gives each `OP` its operation, and an issue follows it. -/
theorem opSelectsTheOperation : Obligations.OpSelectsTheOperation := by
  unfold Obligations.OpSelectsTheOperation
  exact fun s hw =>
    ⟨fun hop => step_of_decodeOp_ok hw hop rfl, fun hop => step_of_decodeOp_ok hw hop rfl,
      fun hop => step_of_decodeOp_ok hw hop rfl, fun hop => step_of_decodeOp_ok hw hop rfl,
      fun hop => step_of_decodeOp_ok hw hop rfl, fun _ hv hop => step_of_op_reserved hw hop hv,
      fun hop => step_of_op_none hw hop⟩

/-! ### The wire symbol at a position, by its first byte -/

theorem decodeWire_field_pair (x : Byte) (rest : List Byte) :
    decodeWire .field (0x7D#8 :: x :: rest) = .ok (decodeEscape x, rest) := rfl

theorem decodeWire_field_lone_escape : decodeWire .field [0x7D#8] = .error .truncatedEscape := rfl

theorem decodeWire_field_literal {b : Byte} (rest : List Byte) (hb : b ≠ 0x7D#8) :
    decodeWire .field (b :: rest) = .ok (.literal b, rest) :=
  if_neg hb

theorem decodeWire_marker_flag (rest : List Byte) : decodeWire .marker (0x7E#8 :: rest) = .ok (.flag, rest) := rfl

theorem decodeWire_marker_other {b : Byte} (rest : List Byte) (hb : b ≠ 0x7E#8) :
    decodeWire .marker (b :: rest) = .error (.notAMarker b) :=
  if_neg hb

/-- Settles O12: one equation of the decoder for each first byte at each position. -/
theorem symbolLengthByFirstByte : Obligations.SymbolLengthByFirstByte := by
  unfold Obligations.SymbolLengthByFirstByte
  exact ⟨fun x rest => ⟨decodeEscape x, decodeWire_field_pair x rest⟩, decodeWire_field_lone_escape,
    fun _ rest hb => decodeWire_field_literal rest hb, decodeWire_marker_flag,
    fun _ rest hb => decodeWire_marker_other rest hb⟩

/-! ### The stuffed field of a byte -/

/-- The stuffer writes a literal for every byte that is not reserved (R121). -/
theorem symbolOf_plain {b : Byte} (h : isReserved b = false) : symbolOf b = .literal b := by
  have hb : ¬ (b = 0x11#8 ∨ b = 0x13#8 ∨ b = 0x7D#8 ∨ b = 0x7E#8) := by simp [← isReserved_iff, h]
  simp only [not_or] at hb
  obtain ⟨h11, h13, h7D, h7E⟩ := hb
  simp only [symbolOf, if_neg h11, if_neg h13, if_neg h7D, if_neg h7E]

/-- The stuffed field of a byte is the encoding of the symbol the table names for it (R71, R121). -/
theorem encode_symbolOf (b : Byte) : encode (symbolOf b) = .wire (stuffByte b) := by
  cases h : isReserved b with
  | true => rcases (isReserved_iff b).mp h with rfl | rfl | rfl | rfl <;> rfl
  | false => rw [symbolOf_plain h, stuffByte_plain h, encode]

/-- Settles O21: a reserved byte's field is 0x7D and the byte XOR 0x20, any other byte's is itself. -/
theorem stuffedFieldOfEachByte : Obligations.StuffedFieldOfEachByte := by
  unfold Obligations.StuffedFieldOfEachByte
  exact ⟨stuffByte_reserved rfl, stuffByte_reserved rfl, stuffByte_reserved rfl, stuffByte_reserved rfl,
    isReserved_iff, fun _ => stuffByte_plain, encode_symbolOf⟩

end Sys2Proof.Machine
end

section
/-! PROOFS. The checksum as a difference of bytes (R101, R103): its input bytes enter it by one sum mod 256, so their
order, an early reduction and changes that cancel do not show (R103, R106). -/

namespace Sys2Proof.Machine

/-! ### The checksum in the ring of bytes -/

/-- Reducing the exact sum once is adding the bytes with wrap (R103). -/
theorem ofNat_sum_toNat (p : List Byte) : BitVec.ofNat 8 (p.map BitVec.toNat).sum = p.sum := by
  induction p with
  | nil => rfl
  | cons b p ih =>
    rw [List.map_cons, List.sum_cons, BitVec.ofNat_add, ih, BitVec.ofNat_toNat, BitVec.setWidth_eq, List.sum_cons]

/-- The complement of the sum of the input bytes, all added with wrap (R101, R103). -/
theorem cksum_eq_sub (hs dl : Byte) (p : List Byte) : cksum hs dl p = 255#8 - (hs + dl + p.sum) := by
  simp only [cksum, not8, mod256, BitVec.ofNat_add, ofNat_sum_toNat, BitVec.ofNat_toNat, BitVec.setWidth_eq]

/-- The complement of the reduced sum, as a number that fits a byte (R101). -/
theorem cksum_eq_ofNat (hs dl : Byte) (p : List Byte) :
    cksum hs dl p = BitVec.ofNat 8 (255 - (hs.toNat + dl.toNat + (p.map BitVec.toNat).sum) % 256) := by
  rw [← cksum_toNat, BitVec.ofNat_toNat, BitVec.setWidth_eq]

/-! ### CKSUM -/

/-- Settles O17: the operands present, CKSUM finishes with the checksum alone; the length out of range, it is
refused with the other requests of R24. -/
theorem cksumWritesTheChecksum : Obligations.CksumWritesTheChecksum := by
  unfold Obligations.CksumWritesTheChecksum
  refine ⟨fun s p hs dl hp hhs hdl => ?_, fun s n hlen hn => ?_⟩
  · rw [exec_cksum_of hp hhs hdl, ← cksum_eq_ofNat]
    exact endsWith_ok s _
  · obtain ⟨hrefused, -, -⟩ := requestsOutOfRangeAreRefused.1 s n hlen hn
    exact hrefused

/-! ### Order and reduction -/

/-- The checksum follows from the sum of the payload, whatever the payload that has it (R103). -/
theorem cksum_congr_sum (hs dl : Byte) {p q : List Byte} (h : p.sum = q.sum) : cksum hs dl p = cksum hs dl q := by
  rw [cksum_eq_sub, cksum_eq_sub, h]

theorem foldl_sub_eq_sub_sum (p : List Byte) (x : Byte) : p.foldl (fun acc b => acc - b) x = x - p.sum := by
  induction p generalizing x with
  | nil => simp
  | cons b p ih => rw [List.foldl_cons, ih, List.sum_cons, sub_sub]

/-- Settles O18: each form is the complement of the same sum of bytes. -/
theorem cksumIgnoresOrderAndPrereduction : Obligations.CksumIgnoresOrderAndPrereduction := by
  unfold Obligations.CksumIgnoresOrderAndPrereduction
  refine ⟨fun hs dl p q hperm => cksum_congr_sum hs dl hperm.sum_eq, fun hs dl p => ?_, fun a c dl p => ?_⟩
  · rw [cksum_eq_sub, foldl_sub_eq_sub_sum, sub_sub]
  · simp only [cksum_eq_sub, not8, BitVec.ofNat_add, ofNat_sum_toNat, BitVec.ofNat_toNat, BitVec.setWidth_eq]

/-- Settles O19: the checksum is what the reduced sum lacks of 0xFF. -/
theorem cksumSelfCheck : Obligations.CksumSelfCheck := by
  unfold Obligations.CksumSelfCheck
  intro hs dl p
  rw [cksum_toNat]
  omega

/-! ### Changes of the input -/

/-- Whatever a change of the payload adds to its sum, it takes from the checksum (R106). -/
theorem cksum_sub_of_sum_add (hs dl d : Byte) {p q : List Byte} (h : q.sum = p.sum + d) :
    cksum hs dl q = cksum hs dl p - d := by
  rw [cksum_eq_sub, cksum_eq_sub, h]
  abel

/-- Settles O20: a change of the header sum or the length moves the sum by itself, one of a payload byte moves the sum of
the payload, and two that cancel leave that sum as it was. -/
theorem cksumSensitivity : Obligations.CksumSensitivity := by
  unfold Obligations.CksumSensitivity
  refine ⟨fun hs dl d p => ?_, fun hs dl d p => ?_, fun hs dl d b u v => cksum_sub_of_sum_add hs dl d ?_,
    fun x d hd => sub_eq_self.not.mpr hd, fun hs dl d b c u v w => cksum_congr_sum hs dl ?_⟩
  · rw [cksum_eq_sub, cksum_eq_sub]
    abel
  · rw [cksum_eq_sub, cksum_eq_sub]
    abel
  · simp only [List.sum_append, List.sum_cons]
    abel
  · simp only [List.sum_append, List.sum_cons]
    abel

end Sys2Proof.Machine
end

section
/-! PROOFS. The stuffer and the destuffer: what the stuffed stream holds, where its fields begin and how they are read
back (R121 to R132). -/

namespace Sys2Proof.Machine

/-! ### STUFF -/

/-- Settles O22: the input presented, STUFF finishes with the stuffed bytes in `OUT`; the length out of range, it is
refused with the other requests of R24. -/
theorem stuffWritesTheStuffedBytes : Obligations.StuffWritesTheStuffedBytes := by
  unfold Obligations.StuffWritesTheStuffedBytes
  refine ⟨fun s p hp => ?_, fun s n hlen hn => ?_⟩
  · rw [flatMap_eq_stuff, exec_stuff_of hp]
    exact endsWithOut_ok s _
  · obtain ⟨-, hrefused, -⟩ := requestsOutOfRangeAreRefused.1 s n hlen hn
    exact hrefused

/-! ### The length of a stuffed stream -/

theorem reservedCount_eq_zero_iff (p : List Byte) : reservedCount p = 0 ↔ ∀ b ∈ p, isReserved b = false := by
  simp [reservedCount, List.countP_eq_zero]

/-- Settles O23: the stream is longer than its input by the reserved bytes, of which there may be none. -/
theorem stuffedLength : Obligations.StuffedLength := by
  unfold Obligations.StuffedLength
  intro p
  rw [stuff_length, ← reservedCount_eq_zero_iff]
  omega

/-- At most one added byte for each byte of the input (R123). -/
theorem stuff_length_le (p : List Byte) : (stuff p).length ≤ 2 * p.length := by
  rw [stuff_length]
  have := reservedCount_le p
  omega

/-- Settles O24: a STUFF that ends had an input of at most 255 bytes, and `OUT` holds its stuffed stream alone. -/
theorem stuffOutputFits : Obligations.StuffOutputFits := by
  unfold Obligations.StuffOutputFits
  intro s t h
  obtain ⟨p, ⟨hp, -, -⟩, rfl⟩ := exec_stuff_next h
  have hfits : (stuff p).length ≤ 510 := (stuff_length_le p).trans (by omega)
  refine ⟨⟨BitVec.ofNat 10 (stuff p).length, rfl, ?_⟩, fun k hk => ?_⟩
  · rw [BitVec.toNat_ofNat]
    exact (Nat.mod_le _ _).trans hfits
  · have hread : (finish (outResult (stuff p)) s).res.outBuf.read k = (stuff p)[k]? := Memory.read_ofBytes _ k
    rw [hread, List.getElem?_eq_none (hfits.trans hk)]

/-! ### The bytes of a stuffed stream -/

theorem stuff_cons_reserved {b : Byte} (p : List Byte) (h : isReserved b = true) :
    stuff (b :: p) = 0x7D#8 :: (b ^^^ 0x20#8) :: stuff p := by
  rw [stuff_cons, stuffByte_reserved h]
  rfl

theorem stuff_cons_plain {b : Byte} (p : List Byte) (h : isReserved b = false) : stuff (b :: p) = b :: stuff p := by
  rw [stuff_cons, stuffByte_plain h]
  rfl

/-- The stuffer writes only canonical pairs (R71, R130). -/
theorem xor_mem_canonicalSeconds {b : Byte} (h : isReserved b = true) : b ^^^ 0x20#8 ∈ canonicalSeconds := by
  rcases (isReserved_iff b).mp h with rfl | rfl | rfl | rfl <;> decide

/-- No second byte of a canonical pair is itself reserved. -/
theorem isReserved_of_mem_canonicalSeconds : ∀ x ∈ canonicalSeconds, isReserved x = false := by decide

/-- The one reserved byte that a stuffed stream can hold is the escape (R130). -/
theorem eq_escape_of_mem_stuff {p : List Byte} {x : Byte} (hx : x ∈ stuff p) (hr : isReserved x = true) :
    x = 0x7D#8 := by
  induction p with
  | nil => cases hx
  | cons b p ih =>
    cases hb : isReserved b with
    | true =>
      rw [stuff_cons_reserved p hb, List.mem_cons, List.mem_cons] at hx
      rcases hx with rfl | rfl | hx
      · rfl
      · simp [isReserved_of_mem_canonicalSeconds _ (xor_mem_canonicalSeconds hb)] at hr
      · exact ih hx
    | false =>
      rw [stuff_cons_plain p hb, List.mem_cons] at hx
      rcases hx with rfl | hx
      · simp [hb] at hr
      · exact ih hx

/-- After an escape comes the second byte of its pair: the escape stands first in the pair of a reserved byte, and
nowhere else in a field (R130). -/
theorem stuff_after_escape {p : List Byte} {k : Nat} (h : (stuff p)[k]? = some 0x7D#8) :
    ∃ x ∈ canonicalSeconds, (stuff p)[k + 1]? = some x := by
  induction p generalizing k with
  | nil => cases h
  | cons b p ih =>
    cases hb : isReserved b with
    | true =>
      have hsecond := xor_mem_canonicalSeconds hb
      rw [stuff_cons_reserved p hb] at h ⊢
      match k, h with
      | 0, _ => exact ⟨b ^^^ 0x20#8, hsecond, rfl⟩
      | 1, h =>
        have hesc : b ^^^ 0x20#8 = 0x7D#8 := Option.some.inj h
        exact absurd (hesc ▸ hsecond) (by decide)
      | k + 2, h => exact ih h
    | false =>
      rw [stuff_cons_plain p hb] at h ⊢
      match k, h with
      | 0, h =>
        obtain rfl : b = 0x7D#8 := Option.some.inj h
        exact absurd hb (by decide)
      | k + 1, h => exact ih h

/-- Settles O25: 0x7E, 0x11 and 0x13 are reserved and not the escape, and each escape begins a canonical pair. -/
theorem stuffedStreamHoldsNoMarker : Obligations.StuffedStreamHoldsNoMarker := by
  unfold Obligations.StuffedStreamHoldsNoMarker
  intro p k
  have habsent (x : Byte) (hr : isReserved x = true) (hne : x ≠ 0x7D#8) : (stuff p)[k]? ≠ some x := fun hx =>
    hne (eq_escape_of_mem_stuff (List.mem_of_getElem? hx) hr)
  exact ⟨habsent _ rfl (by decide), habsent _ rfl (by decide), habsent _ rfl (by decide), stuff_after_escape⟩

/-! ### The fields of a stuffed stream -/

/-- Settles O26: the stream is stuffed fields of its input, and a stream's fields are unique from the first on. -/
theorem stuffedStreamParsesUniquely : Obligations.StuffedStreamParsesUniquely := by
  unfold Obligations.StuffedStreamParsesUniquely
  refine ⟨stuff_append, fun p q => ⟨fun h => h.unique (stuff_fieldsOf p), ?_⟩,
    fun u v u' v' b b' hu hu' e => ?_⟩
  · rintro rfl
    exact stuff_fieldsOf q
  · obtain ⟨hb, huu', hvv'⟩ := hu.unique hu' e
    exact ⟨huu', hvv', hb⟩

/-- Where the stuffed field of the byte `p[k]` begins in `stuff p`: after the fields of the bytes before it (R129). -/
def fieldStart (p : List Byte) (k : Nat) : Nat := (stuff (p.take k)).length

theorem fieldStart_zero (p : List Byte) : fieldStart p 0 = 0 := rfl

theorem fieldStart_length (p : List Byte) : fieldStart p p.length = (stuff p).length := by
  rw [fieldStart, List.take_length]

theorem fieldStart_succ {p : List Byte} {k : Nat} {b : Byte} (h : p[k]? = some b) :
    fieldStart p (k + 1) = fieldStart p k + (stuffByte b).length := by
  simp [fieldStart, List.take_add_one, h, stuff_append]

/-- A stuffed stream, cut around the field of its input's byte `k` (R129). -/
theorem stuff_eq_around_field {p : List Byte} {k : Nat} {b : Byte} (h : p[k]? = some b) :
    stuff p = stuff (p.take k) ++ stuffByte b ++ stuff (p.drop (k + 1)) := by
  obtain ⟨hk, rfl⟩ := List.getElem?_eq_some_iff.mp h
  rw [List.append_assoc, ← stuff_cons, ← List.drop_eq_getElem_cons hk, ← stuff_append, List.take_append_drop]

/-- The stuffed field of byte `k` destuffs to it, and the next field begins where the destuffer stops (R128). -/
theorem destuff_fieldStart {p : List Byte} {k : Nat} {b : Byte} (h : p[k]? = some b) :
    destuff (Memory.ofBytes (stuff p)) (stuff p).length (fieldStart p k) = .ok (b, fieldStart p (k + 1)) := by
  have hat : (Memory.ofBytes (stuff p)).HasAt (fieldStart p k) (stuffByte b) := by
    rw [stuff_eq_around_field h]
    exact Memory.hasAt_ofBytes _ _ _
  have hend : fieldStart p k + (stuffByte b).length ≤ (stuff p).length := by
    simp only [stuff_eq_around_field h, List.length_append, fieldStart]
    omega
  rw [destuff_field hat (stuffByte_isField b) hend, fieldStart_succ h]

/-- Settles O27: the indices are the starts of the fields. -/
theorem destuffOfStuffRoundTrip : Obligations.DestuffOfStuffRoundTrip := by
  unfold Obligations.DestuffOfStuffRoundTrip
  exact fun p => ⟨fieldStart p, fieldStart_zero p, fieldStart_length p, fun _ _ => destuff_fieldStart⟩

/-! ### DESTUFF -/

/-- DESTUFF reports the field the destuffer reads at `CUR` (R126). -/
theorem exec_destuff_field {s : State} {n : Nat} {cur : BitVec 10} {u : List Byte} {b : Byte} (hn : n ≤ 522)
    (hlen : s.req.rawlen = some (BitVec.ofNat 10 n)) (hcur : s.req.cur = some cur)
    (hat : s.req.rawBuf.HasAt cur.toNat u) (hu : IsField u b) (hend : cur.toNat + u.length ≤ n) :
    exec .destuff s = conclude s (.ok
      { ResRegs.blank with rbyte := some b, rnext := some (BitVec.ofNat 10 (cur.toNat + u.length)) }) := by
  rw [exec_destuff_of hn hlen hcur, destuff_field hat hu hend]
  rfl

/-- DESTUFF reports the error the destuffer raises (R126). -/
theorem exec_destuff_raised {s : State} {n : Nat} {cur : BitVec 10} {e : ErrKind} (hn : n ≤ 522)
    (hlen : s.req.rawlen = some (BitVec.ofNat 10 n)) (hcur : s.req.cur = some cur)
    (hd : destuff s.req.rawBuf n cur.toNat = .error (.raised e)) : EndsInError (exec .destuff s) s e.code := by
  rw [exec_destuff_of hn hlen hcur, hd]
  exact endsInError_raised s e

/-- Settles O28: DESTUFF ends as the destuffer does at `CUR`: with the field that lies below `RAWLEN`, or with
TruncatedFrame where no byte or a lone escape is left. -/
theorem destuffReadsOneField : Obligations.DestuffReadsOneField := by
  unfold Obligations.DestuffReadsOneField
  refine ⟨fun s n cur u b hn hlen hcur hend hat hu => ?_, fun s n cur hn hlen hcur hcut => ?_,
    fun s n hlen hn => ?_⟩
  · rw [exec_destuff_field hn hlen hcur hat hu hend]
    exact endsWith_ok s _
  · refine exec_destuff_raised (e := .truncatedFrame) hn hlen hcur ?_
    rcases hcut with hpast | ⟨hlast, hesc⟩
    · exact destuff_past hpast
    · exact destuff_lone hlast hesc
  · obtain ⟨hrefused, -⟩ := requestsOutOfRangeAreRefused.2 s n hlen hn
    exact hrefused

/-- A buffer of one escape pair, canonical or not, destuffs by the XOR rule (R124). -/
theorem destuff_ofBytes_pair (x : Byte) :
    destuff (Memory.ofBytes [0x7D#8, x]) 2 0 = .ok (x ^^^ 0x20#8, 2) :=
  destuff_field (Memory.hasAt_ofBytes [] [0x7D#8, x] []) (.inr ⟨x, rfl, rfl⟩) le_rfl

/-- Settles O29: the XOR rule at the four canonical second bytes, and at every second byte. -/
theorem canonicalPairsDestuff : Obligations.CanonicalPairsDestuff := by
  unfold Obligations.CanonicalPairsDestuff
  exact ⟨destuff_ofBytes_pair 0x31#8, destuff_ofBytes_pair 0x33#8, destuff_ofBytes_pair 0x5D#8,
    destuff_ofBytes_pair 0x5E#8, destuff_ofBytes_pair⟩

end Sys2Proof.Machine
end

section
/-! PROOFS. The frame that ENCODE writes: where its markers stand (R155), how many bytes it has (R157), and the one error
(R152). -/

namespace Sys2Proof.Machine

/-! ### The markers of the transmit frame -/

/-- A stuffed stream holds no frame marker (R130). -/
theorem marker_notMem_stuff (p : List Byte) : 0x7E#8 ∉ stuff p := fun h =>
  absurd (eq_escape_of_mem_stuff h rfl) (by decide)

/-- The marker at both ends of bytes that do not hold it stands nowhere else (R155). -/
theorem getElem?_between_markers {m : Byte} {w : List Byte} (hm : m ∉ w) (k : Nat) :
    ([m] ++ w ++ [m])[k]? = some m ↔ k = 0 ∨ k + 1 = ([m] ++ w ++ [m]).length := by
  have hbody (i : Nat) : w[i]? ≠ some m := fun h => hm (List.mem_of_getElem? h)
  cases k with
  | zero => simp
  | succ i =>
    rcases lt_trichotomy i w.length with hi | rfl | hi
    · have hinside : ([m] ++ w ++ [m])[i + 1]? = w[i]? := by simp [List.getElem?_append_left hi]
      rw [hinside]
      simp [hbody i, hi.ne]
    · simp
    · have hpast : ([m] ++ w ++ [m])[i + 1]? = none := List.getElem?_eq_none (by simpa using hi)
      rw [hpast]
      simp [hi.ne']

theorem transmitFrame_eq_marker_iff (a c : Byte) (p : List Byte) (k : Nat) :
    (transmitFrame a c p)[k]? = some 0x7E#8 ↔ k = 0 ∨ k + 1 = (transmitFrame a c p).length := by
  rw [transmitFrame_eq]
  exact getElem?_between_markers (marker_notMem_stuff _) k

/-! ### The size of the transmit frame -/

/-- `OUTLEN` is wide enough for every transmit frame (R77). -/
theorem toNat_transmitFrame_length (a c : Byte) {p : List Byte} (hp : p.length ≤ 255) :
    (BitVec.ofNat 10 (transmitFrame a c p).length).toNat = (transmitFrame a c p).length := by
  have hle := transmitFrame_length_le a c p hp
  rw [BitVec.toNat_ofNat, Nat.mod_eq_of_lt (by omega)]

/-! ### ENCODE -/

/-- Settles O31: it is the error clause of R151. -/
theorem encodePayloadTooLarge : Obligations.EncodePayloadTooLarge := by
  unfold Obligations.EncodePayloadTooLarge
  obtain ⟨-, -, habove⟩ := encodeWritesTheTransmitFrame
  exact habove

/-- Settles O32: an ENCODE that succeeds leaves the transmit frame in `OUT`, two markers around a stuffed stream. -/
theorem encodeMarkersStandOnlyAtTheEnds : Obligations.EncodeMarkersStandOnlyAtTheEnds := by
  unfold Obligations.EncodeMarkersStandOnlyAtTheEnds
  intro s t h hok
  rcases exec_encode_next h with ⟨p, a, c, ⟨hp, -, -⟩, -, -, rfl⟩ | ⟨n, -, -, rfl⟩
  · refine ⟨BitVec.ofNat 10 (transmitFrame a c p).length, rfl, fun k => ?_⟩
    have hread : (finish (outResult (transmitFrame a c p)) s).res.outBuf.read k = (transmitFrame a c p)[k]? :=
      Memory.read_ofBytes _ k
    rw [hread, toNat_transmitFrame_length a c hp]
    exact transmitFrame_eq_marker_iff a c p k
  · exact absurd hok (by decide : ERR ≠ 1#2)

/-- Settles O33: `OUTLEN` is the length of the transmit frame, and an ENCODE that names an error is not one that
finished, so it raised PayloadTooLarge. -/
theorem encodedFrameSize : Obligations.EncodedFrameSize := by
  unfold Obligations.EncodedFrameSize
  refine ⟨fun s a c p hp ha hc => ?_, fun s t h herr => ?_⟩
  · have hsize := transmitFrame_length a c p
    have hlen := toNat_transmitFrame_length a c hp.1
    refine ⟨finish (outResult (transmitFrame a c p)) s, BitVec.ofNat 10 (transmitFrame a c p).length,
      exec_encode_of hp ha hc, rfl, hlen.trans hsize, ?_, hlen.trans_le (transmitFrame_length_le a c p hp.1)⟩
    rw [hlen, hsize]
    omega
  · rcases exec_encode_next h with ⟨p, a, c, -, -, -, rfl⟩ | ⟨n, hinlen, hn, -⟩
    · exact absurd rfl herr
    · exact ⟨n, hinlen, hn⟩

end Sys2Proof.Machine
end

section
/-! PROOFS. The frame decoder: the errors of its gates, of CHECKSUM and of STOP, the frames it accepts and what a success
has read (R171 to R188). -/

namespace Sys2Proof.Machine

/-! ### The bytes presented in `RAW` -/

/-- The first of the bytes presented are presented too, with the same `RAWLEN`. -/
theorem State.Raw.of_append {s : State} {u v : List Byte} {n : Nat} (h : s.Raw (u ++ v) n) : s.Raw u n := by
  have hat := (Memory.hasAt_append.mp h.hasAt).1
  obtain ⟨hlen, hcap, hraw, -⟩ := h
  rw [List.length_append] at hlen
  exact ⟨by omega, hcap, hraw, fun k hk => by simpa using hat k hk⟩

/-- A receive frame as markers around one stuffed sequence (R76, R187). -/
theorem receiveFrame_eq (a c st : Byte) (p : List Byte) :
    receiveFrame a c st p =
      0x7E#8 :: stuff ([a, c, st, BitVec.ofNat 8 p.length] ++ p ++ [receiveChecksum a c st p]) ++ [0x7E#8] := by
  simp [receiveFrame, receiveBody, stuff_append]

/-- The length of a payload of at most 255 bytes fits the D of its frame (R76). -/
theorem toNat_ofNat_length {p : List Byte} (hp : p.length ≤ 255) : (BitVec.ofNat 8 p.length).toNat = p.length := by
  rw [BitVec.toNat_ofNat, Nat.mod_eq_of_lt (by omega)]

/-! ### The length gate, START and STOP -/

theorem decodeFrame_short {m : Memory} {n : Nat} {maxlen : Byte} (hn : n < 7) :
    decodeFrame m n maxlen = .error (.raised .frameTooShort) := if_pos hn

theorem decodeFrame_noStart {m : Memory} {n : Nat} {maxlen b : Byte} (hn : 7 ≤ n) (h0 : m.read 0 = some b)
    (hb : b ≠ 0x7E#8) : decodeFrame m n maxlen = .error (.raised .missingStartMarker) := by
  have hgate : ¬ n < Config.MIN_RX_FRAME := by simpa using hn
  simp [decodeFrame, hgate, readRaw_some h0, Config.FLAG, hb]

theorem stopMarker_past {m : Memory} {n i : Nat} (h : n ≤ i) :
    stopMarker m n i = .error (.raised .missingStopMarker) := if_pos h

theorem stopMarker_wrong {m : Memory} {n i : Nat} {b : Byte} (hi : i < n) (hm : m.read i = some b) (hb : b ≠ 0x7E#8) :
    stopMarker m n i = .error (.raised .missingStopMarker) := by
  have hbelow : ¬ n ≤ i := by omega
  simp [stopMarker, hbelow, readRaw_some hm, Config.FLAG, hb]

/-- Settles O35: the gate stands before the first read of `RAW`. -/
theorem decodeFrameTooShort : Obligations.DecodeFrameTooShort := by
  unfold Obligations.DecodeFrameTooShort
  intro s n m hn hlen hmax
  exact exec_decode_raised (e := .frameTooShort) (by omega) hlen hmax (decodeFrame_short hn)

/-- Settles O36: past the gate, START compares the byte of cell 0. -/
theorem decodeMissingStartMarker : Obligations.DecodeMissingStartMarker := by
  unfold Obligations.DecodeMissingStartMarker
  intro s n m b hraw hn hb hmax
  have h0 : s.req.rawBuf.read 0 = some b := Memory.hasAt_singleton.mp hraw.hasAt
  obtain ⟨-, hcap, hlen, -⟩ := hraw
  exact exec_decode_raised (e := .missingStartMarker) hcap hlen hmax (decodeFrame_noStart hn h0 hb)

/-! ### CHECKSUM -/

/-- With the header, all D payload bytes and a checksum field in the buffer, DECODE compares the checksum and goes on with
the stop marker (R179 to R181). -/
theorem decodeFrame_checksum {m : Memory} {n : Nat} {maxlen a c st d crc : Byte} {w p : List Byte} (hn : 7 ≤ n)
    (hw : FieldsOf w ([a, c, st, d] ++ p ++ [crc])) (hm : m.HasAt 0 (0x7E#8 :: w)) (hl : w.length + 1 ≤ n)
    (hd : p.length = d.toNat) (hx : p.length ≤ maxlen.toNat) :
    decodeFrame m n maxlen =
      if crc ≠ cksum (a + c + st) d p then .error (.raised .checksumMismatch)
      else (do
        stopMarker m n (w.length + 1)
        .ok (⟨a, c, st, d⟩, p)) := by
  obtain ⟨u, v, rfl, hu, hv⟩ := hw.split
  rw [fieldsOf_singleton] at hv
  obtain ⟨h0, hat⟩ := Memory.hasAt_cons.mp hm
  obtain ⟨hmu, hmv⟩ := Memory.hasAt_append.mp hat
  rw [List.length_append] at hl
  have hcur : 0 + 1 + u.length + v.length = (u ++ v).length + 1 := by
    rw [List.length_append]
    omega
  rw [decodeFrame_payload hn h0 hu hmu (by omega) hd hx, destuff_field hmv hv (by omega), ← hcur]
  rfl

/-- Settles O39: the checksum is compared before the byte after it is looked at. -/
theorem decodeChecksumMismatch : Obligations.DecodeChecksumMismatch := by
  unfold Obligations.DecodeChecksumMismatch
  intro s n m a c st d crc w p hw hd hx hcrc hn hraw hmax
  have hat := hraw.hasAt
  obtain ⟨hfits, hcap, hlen, -⟩ := hraw
  refine exec_decode_raised (e := .checksumMismatch) hcap hlen hmax ?_
  rw [decodeFrame_checksum hn hw hat hfits hd hx, if_pos hcrc]

/-- With the right checksum DECODE ends as STOP does (R181). -/
theorem decodeFrame_stop {m : Memory} {n : Nat} {maxlen a c st d : Byte} {w p : List Byte} (hn : 7 ≤ n)
    (hw : FieldsOf w ([a, c, st, d] ++ p ++ [cksum (a + c + st) d p])) (hm : m.HasAt 0 (0x7E#8 :: w))
    (hl : w.length + 1 ≤ n) (hd : p.length = d.toNat) (hx : p.length ≤ maxlen.toNat) :
    decodeFrame m n maxlen = (do
      stopMarker m n (w.length + 1)
      .ok (⟨a, c, st, d⟩, p)) := by
  rw [decodeFrame_checksum hn hw hm hl hd hx, if_neg (not_not.mpr rfl)]

/-- Settles O40: STOP finds the cursor at `RAWLEN`, or a byte that is not the marker. -/
theorem decodeMissingStopMarker : Obligations.DecodeMissingStopMarker := by
  unfold Obligations.DecodeMissingStopMarker
  intro s n m a c st d w p tail hw hd hx htail hn hraw hmax
  obtain ⟨hat, hatTail⟩ := Memory.hasAt_append.mp hraw.hasAt
  obtain ⟨hfits, hcap, hlen, -⟩ := hraw
  simp only [List.length_append, List.length_cons] at hfits
  rw [Nat.zero_add, List.length_cons] at hatTail
  refine exec_decode_raised (e := .missingStopMarker) hcap hlen hmax ?_
  have hstop : stopMarker s.req.rawBuf n (w.length + 1) = .error (.raised .missingStopMarker) := by
    rcases htail with ⟨-, rfl⟩ | ⟨b, hb, rfl⟩
    · exact stopMarker_past le_rfl
    · exact stopMarker_wrong (by simpa using hfits) (Memory.hasAt_singleton.mp hatTail) hb
  rw [decodeFrame_stop hn hw hat (by omega) hd hx, hstop]
  rfl

/-! ### The frames that DECODE accepts -/

/-- Settles O41: no phase compares a byte but the markers and the checksum; the length gate is passed because the five
fields around the payload and the two markers are at least seven bytes. -/
theorem decodeAcceptsEveryGoodFrame : Obligations.DecodeAcceptsEveryGoodFrame := by
  unfold Obligations.DecodeAcceptsEveryGoodFrame
  intro s n m a c st d w p hw hd hx hraw hmax
  obtain ⟨hat, hatStop⟩ := Memory.hasAt_append.mp hraw.hasAt
  obtain ⟨hfits, hcap, hlen, -⟩ := hraw
  have hfields := hw.length_le
  simp only [List.length_append, List.length_cons, List.length_nil] at hfits hfields
  rw [Nat.zero_add, List.length_cons, Memory.hasAt_singleton] at hatStop
  have hframe : decodeFrame s.req.rawBuf n m = .ok (⟨a, c, st, d⟩, p) := by
    rw [decodeFrame_stop (by omega) hw hat (by omega) hd hx, stopMarker_ok (by omega) hatStop]
    rfl
  rw [exec_decode_of hcap hlen hmax, hframe]
  exact endsWithFrame_ok s ⟨a, c, st, d⟩ p

/-- Settles O42: a receive frame is one of the frames that DECODE accepts. -/
theorem decodeOfReceiveFrameRoundTrip : Obligations.DecodeOfReceiveFrameRoundTrip := by
  unfold Obligations.DecodeOfReceiveFrameRoundTrip
  intro s n m a c st p hp hx hraw hmax
  rw [receiveFrame_eq] at hraw
  exact decodeAcceptsEveryGoodFrame s n m a c st _ _ p (stuff_fieldsOf _) (toNat_ofNat_length hp).symm hx hraw hmax

/-! ### What a success has read -/

/-- A DECODE that ends has its operands, and ends with what its frame function answers or with the error it raises. -/
theorem exec_decode_next {s t : State} (h : exec .decode s = .next t) :
    (∃ n m hdr pay, n ≤ 522 ∧ s.req.rawlen = some (BitVec.ofNat 10 n) ∧ s.req.maxlen = some m ∧
      decodeFrame s.req.rawBuf n m = .ok (hdr, pay) ∧ t = finish (frameResult hdr pay) s) ∨
    ∃ e, t = raise e s := by
  rcases conclude_next h with ⟨r, hr, rfl⟩ | ⟨e, -, rfl⟩
  · simp only [bind_eq_ok, operand_eq_ok, Except.ok.injEq] at hr
    obtain ⟨n, hn, m, hm, ⟨hdr, pay⟩, hframe, rfl⟩ := hr
    obtain ⟨hcap, hlen⟩ := rawLength_eq_ok hn
    exact .inl ⟨n, m, hdr, pay, hcap, hlen, hm, hframe, rfl⟩
  · exact .inr ⟨e, rfl⟩

/-- Settles O43: a DECODE that succeeds has not raised, so its frame function answered, from the fields it read. -/
theorem decodeSuccessMeansGoodFrame : Obligations.DecodeSuccessMeansGoodFrame := by
  unfold Obligations.DecodeSuccessMeansGoodFrame
  intro s t h hok
  rcases exec_decode_next h with ⟨n, m, ⟨a, c, st, d⟩, p, hcap, hlen, hmax, hframe, rfl⟩ | ⟨e, rfl⟩
  · obtain ⟨w, hw, hd, hx, hat, hfits⟩ := decodeFrame_eq_ok hframe
    rw [Header.expected, Header.sum_eq] at hw
    refine ⟨n, m, a, c, st, d, w, p, hmax, hw, hd, hx,
      ⟨by simpa using Nat.lt_of_succ_le hfits, hcap, hlen, fun k hk => ?_⟩, rfl, rfl, rfl, rfl, fun k => Memory.read_ofBytes p k⟩
    simpa using hat k hk
  · exact absurd hok (by decide : ERR ≠ 1#2)

/-! ### One bit of the checksum field -/

/-- One changed bit makes another byte. -/
theorem xor_bit_ne_self (x : Byte) {j : Nat} (hj : j < 8) : x ^^^ 1#8 <<< j ≠ x := by
  have hbit : ∀ i < 8, 1#8 <<< i ≠ 0#8 := by decide
  intro h
  exact hbit j hj (by simpa using h)

/-- No reserved byte is one bit away from the escape. -/
theorem escape_xor_bit_ne_reserved {x : Byte} (hx : isReserved x = true) {j : Nat} (hj : j < 8) :
    0x7D#8 ^^^ 1#8 <<< j ≠ x := by
  have hfar : ∀ y ∈ Config.RESERVED, ∀ i < 8, 0x7D#8 ^^^ 1#8 <<< i ≠ y := by decide
  exact hfar x (List.contains_iff_mem.mp hx) j hj

/-- A literal that one changed bit makes an escape, which then takes in the stop marker, is not the byte of that pair. -/
theorem ne_markerPair_of_xor_bit_eq_escape {x : Byte} {j : Nat} (hj : j < 8) (h : x ^^^ 1#8 <<< j = 0x7D#8) :
    0x7E#8 ^^^ 0x20#8 ≠ x := by
  have hfar : ∀ i < 8, (0x7E#8 ^^^ 0x20#8) ^^^ 1#8 <<< i ≠ 0x7D#8 := by decide
  rintro rfl
  exact hfar j hj h

/-- A stuffed field with one bit changed, and the stop marker after it, begin with a field of another byte (R188). -/
theorem stuffByte_bitError {crc b : Byte} {k j : Nat} (hj : j < 8) (hb : (stuffByte crc)[k]? = some b) :
    ∃ u v crc', (stuffByte crc).set k (b ^^^ 1#8 <<< j) ++ [0x7E#8] = u ++ v ∧ IsField u crc' ∧ crc' ≠ crc := by
  cases hr : isReserved crc with
  | true =>
    rw [stuffByte_reserved hr] at hb ⊢
    match k, hb with
    | 0, hb =>
      obtain rfl : 0x7D#8 = b := Option.some.inj hb
      exact ⟨[0x7D#8 ^^^ 1#8 <<< j], _, _, rfl, .inl ⟨xor_bit_ne_self _ hj, rfl⟩, escape_xor_bit_ne_reserved hr hj⟩
    | 1, hb =>
      obtain rfl : crc ^^^ 0x20#8 = b := Option.some.inj hb
      have hlogical : crc ^^^ 1#8 <<< j = crc ^^^ 0x20#8 ^^^ 1#8 <<< j ^^^ 0x20#8 := by
        rw [BitVec.xor_assoc _ _ 0x20#8, BitVec.xor_comm (1#8 <<< j), ← BitVec.xor_assoc, BitVec.xor_assoc crc]
        simp
      exact ⟨[0x7D#8, crc ^^^ 0x20#8 ^^^ 1#8 <<< j], _, _, rfl, .inr ⟨_, rfl, hlogical⟩, xor_bit_ne_self _ hj⟩
  | false =>
    rw [stuffByte_plain hr] at hb ⊢
    match k, hb with
    | 0, hb =>
      obtain rfl : crc = b := Option.some.inj hb
      by_cases hesc : crc ^^^ 1#8 <<< j = 0x7D#8
      · refine ⟨[0x7D#8, 0x7E#8], [], _, ?_, .inr ⟨0x7E#8, rfl, rfl⟩, ne_markerPair_of_xor_bit_eq_escape hj hesc⟩
        simp [hesc]
      · exact ⟨[crc ^^^ 1#8 <<< j], _, _, rfl, .inl ⟨hesc, rfl⟩, xor_bit_ne_self _ hj⟩

/-- Settles O45: the changed field is read as another byte than the computed checksum, the stop marker taken in where the
change makes an escape of a literal. -/
theorem decodeSeesASingleBitError : Obligations.DecodeSeesASingleBitError := by
  unfold Obligations.DecodeSeesASingleBitError
  rintro s m a c st p _ k j b hp hx hj hb rfl hraw hmax
  obtain ⟨u, v, crc', hsplit, hu, hne⟩ := stuffByte_bitError hj hb
  rw [List.append_assoc, hsplit, ← List.append_assoc] at hraw
  have hlen := congrArg List.length hsplit
  have hfield := stuffByte_length (receiveChecksum a c st p)
  have hbody := (stuff_fieldsOf ([a, c, st, BitVec.ofNat 8 p.length] ++ p)).length_le
  refine decodeChecksumMismatch s _ m a c st _ crc' _ p ((stuff_fieldsOf _).append (fieldsOf_singleton.mpr hu))
    (toNat_ofNat_length hp).symm hx hne ?_ hraw.of_append hmax
  simp only [receiveBody, List.length_append, List.length_set, List.length_cons] at hlen hfield hbody ⊢
  omega

end Sys2Proof.Machine
end

section
/-! PROOFS. The result registers after an operation: the code of its one error, or the results its own rule names (R40,
R213). -/

namespace Sys2Proof.Machine

/-! ### What an operation that ends has read and written -/

/-- A length in range, and that many cells of `IN`, are an input presented (R24, R82). -/
theorem input_of_read {s : State} {n : Nat} {p : List Byte} (hn : boundedInputLength s = .ok n)
    (hp : readInput s.req.inBuf n 0 = .ok p) : s.Input p := by
  obtain ⟨hcap, v, hinlen, rfl⟩ := boundedInputLength_eq_ok hn
  obtain ⟨hlen, hcell⟩ := readInput_eq_ok hp
  exact ⟨hlen ▸ hcap, by simpa [hlen] using hinlen, fun k hk => by simpa using hcell k (hlen ▸ hk)⟩

/-- A CKSUM that ends has its operands and never an error (R102). -/
theorem exec_cksum_next {s t : State} (h : exec .cksum s = .next t) :
    ∃ p hs dl, s.Input p ∧ s.req.hsum = some hs ∧ s.req.dlen = some dl ∧
      t = finish { ResRegs.blank with rbyte := some (cksum hs dl p) } s := by
  rcases conclude_next h with ⟨r, hr, rfl⟩ | ⟨k, hk, -⟩
  · simp only [bind_eq_ok, operand_eq_ok, Except.ok.injEq] at hr
    obtain ⟨n, hn, p, hp, hs, hhs, dl, hdl, rfl⟩ := hr
    exact ⟨p, hs, dl, input_of_read hn hp, hhs, hdl, rfl⟩
  · simp only [bind_eq_error] at hk
    rcases hk with hk | ⟨_, -, hk | ⟨_, -, hk | ⟨_, -, hk | ⟨_, -, hk⟩⟩⟩⟩
    · exact absurd hk (boundedInputLength_not_raised _ _)
    · exact absurd hk (readInput_not_raised _ _ _ _)
    · exact absurd hk (operand_not_raised _ _ _)
    · exact absurd hk (operand_not_raised _ _ _)
    · cases hk

/-- A DESTUFF that ends has its operands and ends with the field the destuffer reads, or it raises TruncatedFrame
(R126). -/
theorem exec_destuff_next {s t : State} (h : exec .destuff s = .next t) :
    (∃ n cur b nx, n ≤ 522 ∧ s.req.rawlen = some (BitVec.ofNat 10 n) ∧ s.req.cur = some cur ∧
      destuff s.req.rawBuf n cur.toNat = .ok (b, nx) ∧
      t = finish { ResRegs.blank with rbyte := some b, rnext := some (BitVec.ofNat 10 nx) } s) ∨
    t = raise .truncatedFrame s := by
  rcases conclude_next h with ⟨r, hr, rfl⟩ | ⟨k, hk, rfl⟩
  · simp only [bind_eq_ok, operand_eq_ok, Except.ok.injEq] at hr
    obtain ⟨n, hn, cur, hcur, ⟨b, nx⟩, hfield, rfl⟩ := hr
    obtain ⟨hcap, hlen⟩ := rawLength_eq_ok hn
    exact .inl ⟨n, cur, b, nx, hcap, hlen, hcur, hfield, rfl⟩
  · obtain rfl := destuffRule_raised hk
    exact .inr rfl

/-! ### The results each rule names -/

/-- The result registers that the rule of an operation can hand to `finish` (R102, R126, R131, R151, R172). A wire symbol is
no operation and has none. -/
def RuleResults : Instr → ResRegs → Prop
  | .cksum, r => ∃ b, r = { ResRegs.blank with rbyte := some b }
  | .stuff, r => ∃ o, r = outResult o
  | .destuff, r => ∃ b nx, r = { ResRegs.blank with rbyte := some b, rnext := some nx }
  | .encode, r => ∃ o, r = outResult o
  | .decode, r => ∃ hdr pay, r = frameResult hdr pay
  | _, _ => False

/-- An operation that ends has finished with the results of its own rule or raised one error (R40, R211). -/
theorem exec_request_next {i : Instr} {s t : State} (hi : i.isRequest = true) (h : exec i s = .next t) :
    (∃ r, RuleResults i r ∧ t = finish r s) ∨ ∃ e, t = raise e s := by
  cases i with
  | cksum =>
    obtain ⟨p, hs, dl, -, -, -, rfl⟩ := exec_cksum_next h
    exact .inl ⟨_, ⟨_, rfl⟩, rfl⟩
  | stuff =>
    obtain ⟨p, -, rfl⟩ := exec_stuff_next h
    exact .inl ⟨_, ⟨_, rfl⟩, rfl⟩
  | destuff =>
    rcases exec_destuff_next h with ⟨n, cur, b, nx, -, -, -, -, rfl⟩ | rfl
    · exact .inl ⟨_, ⟨_, _, rfl⟩, rfl⟩
    · exact .inr ⟨_, rfl⟩
  | encode =>
    rcases exec_encode_next h with ⟨p, a, c, -, -, -, rfl⟩ | ⟨n, -, -, rfl⟩
    · exact .inl ⟨_, ⟨_, rfl⟩, rfl⟩
    · exact .inr ⟨_, rfl⟩
  | decode =>
    rcases exec_decode_next h with ⟨n, m, hdr, pay, -, -, -, -, rfl⟩ | ⟨e, rfl⟩
    · exact .inl ⟨_, ⟨_, _, rfl⟩, rfl⟩
    · exact .inr ⟨e, rfl⟩
  | esc11 | esc13 | esc7D | esc7E | escNoncanonical | flag | literal => cases hi

/-- No rule names an error, and CKSUM and DESTUFF alone name `RBYTE`, DESTUFF alone `RNEXT`, STUFF and ENCODE alone `OUT`
and `OUTLEN`, DECODE alone the header and the payload of a frame (R23, R40). -/
theorem RuleResults.others_blank {i : Instr} {r : ResRegs} (h : RuleResults i r) :
    r.err = none ∧
      (i ≠ .cksum → i ≠ .destuff → r.rbyte = none) ∧
      (i ≠ .destuff → r.rnext = none) ∧
      (i ≠ .stuff → i ≠ .encode → r.outlen = none ∧ r.outBuf = []) ∧
      (i ≠ .decode → r.raddr = none ∧ r.rcmd = none ∧ r.rstatus = none ∧ r.rdlen = none ∧ r.rpay = []) := by
  cases i with
  | cksum =>
    obtain ⟨b, rfl⟩ := h
    simp [ResRegs.blank]
  | stuff | encode =>
    obtain ⟨o, rfl⟩ := h
    simp [outResult, ResRegs.blank]
  | destuff =>
    obtain ⟨b, nx, rfl⟩ := h
    simp [ResRegs.blank]
  | decode =>
    obtain ⟨hdr, pay, rfl⟩ := h
    simp [frameResult, ResRegs.blank]
  | esc11 | esc13 | esc7D | esc7E | escNoncanonical | flag | literal => exact h.elim

/-- Settles O15: `raise` keeps the code of its error alone, and `finish` hands on the results of the operation's rule. -/
theorem onlyNamedResultsAreWritten : Obligations.OnlyNamedResultsAreWritten := by
  unfold Obligations.OnlyNamedResultsAreWritten
  intro i s t hi h
  rcases exec_request_next hi h with ⟨r, hr, rfl⟩ | ⟨e, rfl⟩
  · obtain ⟨herr, hbyte, hnext, hout, hframe⟩ := hr.others_blank
    refine .inr ⟨rfl, herr, hbyte, hnext, fun hstuff hencode => ?_, fun hdecode => ?_⟩
    · obtain ⟨hlen, hbuf⟩ := hout hstuff hencode
      exact ⟨hlen, fun k => by simp [hbuf]⟩
    · obtain ⟨haddr, hcmd, hstatus, hdlen, hpay⟩ := hframe hdecode
      exact ⟨haddr, hcmd, hstatus, hdlen, fun k => by simp [hpay]⟩
  · exact .inl ⟨rfl, rfl, e.code, rfl⟩

end Sys2Proof.Machine
end

section
/-! PROOFS. The reset state place by place, and the host's reset action (R22, R23, R240, R241). -/

namespace Sys2Proof.Machine

/-! ### What a read finds after reset -/

@[simp] theorem State.reset_value_req (r : ReqName) : State.reset.value (.req r) = none := by
  cases r <;> rfl

@[simp] theorem State.reset_value_rstate : State.reset.value (.res .rstate) = some 0 := rfl

theorem State.reset_value_res {r : ResName} (hr : r ≠ .rstate) : State.reset.value (.res r) = none := by
  cases r with
  | rstate => exact absurd rfl hr
  | err | rbyte | rnext | outlen | raddr | rcmd | rstatus | rdlen => rfl

/-- All four buffers have no cell written. -/
@[simp] theorem State.reset_buffer (b : Space) : State.reset.buffer b = [] := by
  cases b <;> rfl

@[simp] theorem State.reset_value_cell (b : Space) (i : Nat) : State.reset.value (.cell b i) = none := by
  simp only [State.value, State.reset_buffer, Memory.read_nil, Option.map_none]

/-! ### The reset action -/

/-- Between operations a reset forgets the state it falls in (R241). -/
theorem act_reset {s : State} (hw : s.walk = none) : act .reset s = .next State.reset :=
  act_of_between hw

/-- Settles O1: the registers by name, the cells by their empty buffers, and the reset action between operations. -/
theorem resetLeavesNoValueButIdle : Obligations.ResetLeavesNoValueButIdle := by
  unfold Obligations.ResetLeavesNoValueButIdle
  exact ⟨State.reset_value_req, fun _ => State.reset_value_res, State.reset_value_cell, State.reset_value_rstate, rfl,
    fun _ => act_reset⟩

end Sys2Proof.Machine
end

section
/-! PROOFS. A wire symbol inside an operation (R33, R34, R125): one equation for each phase it can be read in, then what the
symbol leaves in that phase (R174 to R181). -/

namespace Sys2Proof.Machine

/-! ### Every wire symbol is its first byte, its logical byte and its width -/

/-- A wire symbol has wire bytes, and reading it is `takeSymbol` from the first of them, whatever its operand (R125). -/
theorem exec_wire {i : Instr} (hi : i.isRequest = false) :
    ∃ bs first b width, encode i = .wire bs ∧ bs.head? = some first ∧ ∀ s, exec i s = takeSymbol first b width s := by
  cases i with
  | cksum | stuff | destuff | encode | decode => cases hi
  | esc11 | esc13 | esc7D | esc7E | escNoncanonical | flag | literal => exact ⟨_, _, _, _, rfl, rfl, fun _ => rfl⟩

/-- An instruction with wire bytes is no request (R80, R85). -/
theorem isRequest_of_encode_wire {i : Instr} {bs : List Byte} (h : encode i = .wire bs) : i.isRequest = false := by
  cases i with
  | cksum | stuff | destuff | encode | decode => cases h
  | esc11 | esc13 | esc7D | esc7E | escNoncanonical | flag | literal => rfl

/-- FLAG is the marker, read as itself (R73, R174). -/
theorem exec_flag (s : State) : exec .flag s = takeSymbol Config.FLAG Config.FLAG 1#10 s := rfl

/-! ### A symbol by the phase it is read in -/

section
variable {s : State} (first b : Byte) (width : BitVec 10)

theorem symbolMove_idle (hw : s.walk = none) :
    symbolMove first b width s = .error (.refused .outsideOperation) := by
  simp only [symbolMove, hw]

theorem symbolMove_destuff {cur : BitVec 10} (hw : s.walk = some (.destuff cur)) :
    symbolMove first b width s =
      .ok (.done { ResRegs.blank with rbyte := some b, rnext := some (cur + width) }) := by
  simp only [symbolMove, hw]

theorem symbolMove_start {cur : BitVec 10} (hw : s.walk = some (.start cur)) :
    symbolMove first b width s =
      if first = Config.FLAG then .ok (.more (.header (cur + 1) [])) else .error (.raised .missingStartMarker) := by
  simp only [symbolMove, hw]

/-- Only three bytes in hand make the next one the declared length (R175). -/
theorem symbolMove_header {cur : BitVec 10} {got : List Byte} (hw : s.walk = some (.header cur got))
    (hg : got.length ≠ 3) :
    symbolMove first b width s = .ok (.more (.header (cur + width) (got ++ [b]))) := by
  simp only [symbolMove, hw]
  split
  · exact absurd rfl hg
  · rfl

theorem symbolMove_lastHeader {cur : BitVec 10} {a c st : Byte} (hw : s.walk = some (.header cur [a, c, st])) :
    symbolMove first b width s = payloadGate s (cur + width) ⟨a, c, st, b⟩ [] := by
  simp only [symbolMove, hw]

theorem symbolMove_payload {cur : BitVec 10} {h : Header} {pay : List Byte} (hw : s.walk = some (.payload cur h pay)) :
    symbolMove first b width s = payloadGate s (cur + width) h (pay ++ [b]) := by
  simp only [symbolMove, hw]

theorem symbolMove_checksum {cur : BitVec 10} {h : Header} {pay : List Byte}
    (hw : s.walk = some (.checksum cur h pay)) :
    symbolMove first b width s =
      if b = h.expected pay then .ok (.more (.stop (cur + width) h pay)) else .error (.raised .checksumMismatch) := by
  simp only [symbolMove, hw]

theorem symbolMove_stop {cur : BitVec 10} {h : Header} {pay : List Byte} (hw : s.walk = some (.stop cur h pay)) :
    symbolMove first b width s =
      if first = Config.FLAG then .ok (.done (frameResult h pay)) else .error (.raised .missingStopMarker) := by
  simp only [symbolMove, hw]

end

/-! ### The gate after a header's last byte and after each payload byte -/

section
variable {s : State} {n : BitVec 10} {m : Byte} {cur : BitVec 10} {h : Header} {pay : List Byte}

/-- With its operands present the gate compares the bytes obtained with D and `MAXLEN`, and the cursor with `RAWLEN` (R176,
R177). -/
theorem payloadGate_eq (hlen : s.req.rawlen = some n) (hcap : n.toNat ≤ 522) (hmax : s.req.maxlen = some m) :
    payloadGate s cur h pay =
      if pay.length < h.dlen.toNat ∧ pay.length < m.toNat ∧ cur.toNat < n.toNat then .ok (.more (.payload cur h pay))
      else if pay.length < h.dlen.toNat then .error (.raised .incompleteResponse)
      else .ok (.more (.checksum cur h pay)) := by
  simp only [payloadGate, rawLength_some hlen hcap, hmax, operand_some, ok_bind]

/-- The three ends of the gate, for a symbol that runs into it (R176, R177). -/
theorem takeSymbol_gate {first b : Byte} {width : BitVec 10} (hlen : s.req.rawlen = some n) (hcap : n.toNat ≤ 522)
    (hmax : s.req.maxlen = some m) (hmove : symbolMove first b width s = payloadGate s cur h pay) :
    (pay.length < h.dlen.toNat → pay.length < m.toNat → cur.toNat < n.toNat →
      takeSymbol first b width s = .next { s with walk := some (.payload cur h pay) }) ∧
    (pay.length < h.dlen.toNat → (m.toNat ≤ pay.length ∨ n.toNat ≤ cur.toNat) →
      EndsInError (takeSymbol first b width s) s 7#4) ∧
    (h.dlen.toNat ≤ pay.length →
      takeSymbol first b width s = .next { s with walk := some (.checksum cur h pay) }) := by
  simp only [takeSymbol, hmove, payloadGate_eq hlen hcap hmax]
  refine ⟨fun hd hm hc => ?_, fun hd hend => ?_, fun hd => ?_⟩
  · rw [if_pos ⟨hd, hm, hc⟩, proceed_more]
  · rw [if_neg (by omega), if_pos hd]
    exact endsInError_raised s .incompleteResponse
  · rw [if_neg (by omega), if_neg (by omega), proceed_more]

end

/-! ### The statements about symbols -/

/-- Settles O52: a DESTUFF has one field to read. -/
theorem symbolEndsADestuff : Obligations.SymbolEndsADestuff := by
  unfold Obligations.SymbolEndsADestuff
  intro i s cur bs b hi he hf hw
  obtain ⟨first, -, hexec⟩ := exec_symbol hi he hf s
  rw [hexec, takeSymbol, symbolMove_destuff _ _ _ hw]
  exact endsWith_ok s _

/-- Settles O53: no gate stands before the fourth field. -/
theorem symbolInHeader : Obligations.SymbolInHeader := by
  unfold Obligations.SymbolInHeader
  intro i s cur got bs b hi he hf hw hg
  obtain ⟨first, -, hexec⟩ := exec_symbol hi he hf s
  rw [hexec, takeSymbol, symbolMove_header _ _ _ hw hg.ne, proceed_more]

/-- Settles O54: the fourth field runs into the gate with no payload byte in hand. -/
theorem symbolEndsTheHeader : Obligations.SymbolEndsTheHeader := by
  unfold Obligations.SymbolEndsTheHeader
  intro i s cur n m a c st b bs hi he hf hw hlen hcap hmax cur'
  obtain ⟨first, -, hexec⟩ := exec_symbol hi he hf s
  obtain ⟨hgoOn, hstop, hdone⟩ := takeSymbol_gate hlen hcap hmax (symbolMove_lastHeader first b _ hw)
  rw [hexec]
  refine ⟨hgoOn, fun hd hend => hstop hd (hend.imp_left le_of_eq), fun hb => hdone ?_⟩
  simp [hb]

/-- Settles O55: a payload field runs into the gate with its own byte in hand. -/
theorem symbolInPayload : Obligations.SymbolInPayload := by
  unfold Obligations.SymbolInPayload
  intro i s cur n m b h pay bs hi he hf hw hlen hcap hmax cur'
  obtain ⟨first, -, hexec⟩ := exec_symbol hi he hf s
  have hgate := takeSymbol_gate hlen hcap hmax (symbolMove_payload first b (BitVec.ofNat 10 bs.length) hw)
  rw [List.length_append, List.length_singleton] at hgate
  rw [hexec]
  exact hgate

/-- Settles O56: the expected checksum is the one over the header sum, the status in it (R179). -/
theorem symbolInChecksum : Obligations.SymbolInChecksum := by
  unfold Obligations.SymbolInChecksum
  intro i s cur b h pay bs hi he hf hw
  obtain ⟨first, -, hexec⟩ := exec_symbol hi he hf s
  rw [hexec, takeSymbol, symbolMove_checksum _ _ _ hw, Header.expected, Header.sum_eq]
  refine ⟨fun hb => ?_, fun hb => ?_⟩
  · rw [if_pos hb, proceed_more]
  · rw [if_neg hb]
    exact endsInError_raised s .checksumMismatch

/-- Settles O57: the marker phases look at the first raw byte alone. -/
theorem flagAtTheMarkers : Obligations.FlagAtTheMarkers := by
  unfold Obligations.FlagAtTheMarkers
  refine ⟨fun s cur hw => ?_, fun s cur h pay hw => ?_, fun i s bs he hhead => ?_⟩
  · rw [exec_flag, takeSymbol, symbolMove_start _ _ _ hw, if_pos rfl, proceed_more]
    rfl
  · rw [exec_flag, takeSymbol, symbolMove_stop _ _ _ hw, if_pos rfl]
    exact endsWithFrame_ok s h pay
  · obtain ⟨bs', first, b, width, he', hfirst, hexec⟩ := exec_wire (isRequest_of_encode_wire he)
    obtain rfl : bs' = bs := Code.wire.inj (he'.symm.trans he)
    have hne : first ≠ Config.FLAG := by
      rintro rfl
      exact hhead hfirst
    refine ⟨fun cur hw => ?_, fun cur h pay hw => ?_⟩
    · rw [hexec, takeSymbol, symbolMove_start _ _ _ hw, if_neg hne]
      exact endsInError_raised s .missingStartMarker
    · rw [hexec, takeSymbol, symbolMove_stop _ _ _ hw, if_neg hne]
      exact endsInError_raised s .missingStopMarker

/-- Settles O58: with no transient state there is no phase to read a symbol in. -/
theorem symbolOutsideAnOperationIsRefused : Obligations.SymbolOutsideAnOperationIsRefused := by
  unfold Obligations.SymbolOutsideAnOperationIsRefused
  intro i s hi hw
  obtain ⟨bs, first, b, width, -, -, hexec⟩ := exec_wire hi
  rw [hexec, takeSymbol, symbolMove_idle _ _ _ hw, proceed_error, halt_refused]

end Sys2Proof.Machine
end

section
/-! PROOFS. The invariant of the machine: it holds after reset (R240), and every step and every host action keeps it (R40,
R42, R50, R59). -/

namespace Sys2Proof.Machine

/-! ### Buffers -/

/-- Settles O6: reading and writing go along the same cells in rising order. -/
theorem cellWriteThenRead : Obligations.CellWriteThenRead := by
  unfold Obligations.CellWriteThenRead
  exact fun m i v => ⟨Memory.read_write_self m i v, fun _ hne => Memory.read_write_of_ne m v hne,
    fun _ hi hm => Memory.write_wf v hi hm⟩

/-- No cell written is the canonical form of any buffer. -/
theorem Memory.wf_nil (cap : Nat) : Memory.wf cap [] = true := rfl

/-! ### Reset -/

theorem ResRegs.blank_inv : ResRegs.blank.Inv :=
  ⟨by decide, fun _ hc => (nomatch hc), rfl, rfl⟩

/-- Settles O2: nothing is written, so there is no cell, no error and no phase. -/
theorem resetMeetsInvariant : Obligations.ResetMeetsInvariant := by
  unfold Obligations.ResetMeetsInvariant
  exact ⟨Memory.wf_nil 255, Memory.wf_nil 522, ResRegs.blank_inv, fun _ => by decide, fun _ => rfl,
    fun _ hw => nomatch hw⟩

/-! ### A step -/

/-- A step that answers a next state has run the instruction it fetched, or raised one error while it fetched. -/
theorem step_next {s t : State} (h : step s = .next t) :
    (∃ i, fetch s = .ok i ∧ exec i s = .next t) ∨ ∃ e, t = raise e s := by
  unfold step at h
  split at h
  next i hi => exact .inl ⟨i, hi, h⟩
  next e _ =>
    obtain ⟨k, -, rfl⟩ := halt_next h
    exact .inr ⟨k, rfl⟩

/-! ### The operations -/

/-- STUFF and ENCODE write no more bytes than `OUT` has cells (R132, R157). -/
theorem finish_outResult_inv {s : State} {o : List Byte} (hs : s.Inv) (ho : o.length ≤ 520) :
    (finish (outResult o) s).Inv :=
  finish_inv hs rfl (outResult_lengthMatches ho) rfl

/-- A frame with D payload bytes fills `RPAY` as `RDLEN` says (R178). -/
theorem finish_frameResult_inv {s : State} {h : Header} {pay : List Byte} (hs : s.Inv)
    (hd : pay.length = h.dlen.toNat) : (finish (frameResult h pay) s).Inv :=
  finish_inv hs rfl rfl (frameResult_lengthMatches hd)

theorem exec_request_inv {i : Instr} {s t : State} (hi : i.isRequest = true) (hs : s.Inv) (h : exec i s = .next t) :
    t.Inv := by
  cases i with
  | cksum =>
    obtain ⟨p, hsum, dl, -, -, -, rfl⟩ := exec_cksum_next h
    exact finish_inv hs rfl rfl rfl
  | stuff =>
    obtain ⟨p, ⟨hp, -, -⟩, rfl⟩ := exec_stuff_next h
    exact finish_outResult_inv hs ((stuff_length_le p).trans (by omega))
  | destuff =>
    rcases exec_destuff_next h with ⟨n, cur, b, nx, -, -, -, -, rfl⟩ | rfl
    · exact finish_inv hs rfl rfl rfl
    · exact raise_inv _ hs
  | encode =>
    rcases exec_encode_next h with ⟨p, a, c, ⟨hp, -, -⟩, -, -, rfl⟩ | ⟨n, -, -, rfl⟩
    · exact finish_outResult_inv hs ((transmitFrame_length_le a c p hp).trans (by omega))
    · exact raise_inv _ hs
  | decode =>
    rcases exec_decode_next h with ⟨n, m, hdr, pay, -, -, -, hframe, rfl⟩ | ⟨e, rfl⟩
    · obtain ⟨w, -, hd, -⟩ := decodeFrame_eq_ok hframe
      exact finish_frameResult_inv hs hd
    · exact raise_inv e hs
  | esc11 | esc13 | esc7D | esc7E | escNoncanonical | flag | literal => cases hi

/-! ### The wire symbols -/

/-- The phase of an operation in progress is legal, and its results are ⊥ (R40). -/
theorem State.Inv.of_walk {s : State} {w : Walk} (hs : s.Inv) (hw : s.walk = some w) :
    w.Inv ∧ s.res = { ResRegs.blank with rstate := s.res.rstate } := by
  obtain ⟨-, -, -, -, -, hwalk⟩ := hs
  exact hwalk w hw

/-- Going on to another legal phase keeps the invariant. -/
theorem moveOn_inv {s : State} {w w' : Walk} (hs : s.Inv) (hw : s.walk = some w) (hw' : w'.Inv) :
    State.Inv { s with walk := some w' } := by
  have hblank := (hs.of_walk hw).2
  obtain ⟨hin, hraw, hres, -, hidle, -⟩ := hs
  refine ⟨hin, hraw, hres, fun h => (nomatch h), hidle, fun v hv => ?_⟩
  obtain rfl : w' = v := Option.some.inj hv
  exact ⟨hw', hblank⟩

/-- The gate leads to a legal phase, or it ends the operation in an error (R176, R177). -/
theorem proceed_gate_inv {s t : State} {w : Walk} {cur : BitVec 10} {h : Header} {pay : List Byte} (hs : s.Inv)
    (hw : s.walk = some w) (hpay : pay.length ≤ h.dlen.toNat) (ht : proceed s (payloadGate s cur h pay) = .next t) :
    t.Inv := by
  rcases proceed_next ht with ⟨v, hgate, rfl⟩ | ⟨r, hgate, rfl⟩ | ⟨e, -, rfl⟩
  · obtain ⟨v', hmore, hv'⟩ := gate_inv hpay hgate
    obtain rfl : v = v' := Move.more.inj hmore
    exact moveOn_inv hs hw hv'
  · obtain ⟨v', hmore, -⟩ := gate_inv hpay hgate
    cases hmore
  · exact raise_inv e hs

/-- A marker or checksum test keeps the invariant when what it goes on to does. -/
theorem proceed_ite_inv {s t u : State} {c : Prop} [Decidable c] {mv : Move} {e : ErrKind} (hs : s.Inv)
    (hok : proceed s (.ok mv) = .next u) (hu : u.Inv)
    (ht : proceed s (if c then .ok mv else .error (.raised e)) = .next t) : t.Inv := by
  split at ht
  · obtain rfl : u = t := Host.Outcome.next.inj (hok.symm.trans ht)
    exact hu
  · obtain rfl : raise e s = t := Host.Outcome.next.inj ht
    exact raise_inv e hs

/-- Reading a symbol keeps the invariant, phase by phase (R174 to R181). -/
theorem takeSymbol_inv {s t : State} {first b : Byte} {width : BitVec 10} (hs : s.Inv)
    (h : takeSymbol first b width s = .next t) : t.Inv := by
  rw [takeSymbol] at h
  cases hw : s.walk with
  | none =>
    rw [symbolMove_idle _ _ _ hw] at h
    cases h
  | some w =>
    have hphase := (hs.of_walk hw).1
    cases w with
    | destuff cur =>
      rw [symbolMove_destuff _ _ _ hw] at h
      obtain rfl := Host.Outcome.next.inj h
      exact finish_inv hs rfl rfl rfl
    | start cur =>
      rw [symbolMove_start _ _ _ hw] at h
      exact proceed_ite_inv hs (proceed_more s _) (moveOn_inv (w' := .header (cur + 1) []) hs hw (Nat.zero_le 3)) h
    | header cur got =>
      by_cases hg : got.length = 3
      · obtain ⟨a, c, st, rfl⟩ := List.length_eq_three.mp hg
        rw [symbolMove_lastHeader _ _ _ hw] at h
        exact proceed_gate_inv hs hw (Nat.zero_le _) h
      · rw [symbolMove_header _ _ _ hw hg] at h
        obtain rfl := Host.Outcome.next.inj h
        have hgot : got.length ≤ 3 := hphase
        refine moveOn_inv hs hw (show (got ++ [b]).length ≤ 3 from ?_)
        rw [List.length_append, List.length_singleton]
        omega
    | payload cur hdr pay =>
      rw [symbolMove_payload _ _ _ hw] at h
      have hpay : pay.length < hdr.dlen.toNat := hphase
      exact proceed_gate_inv hs hw (by rw [List.length_append, List.length_singleton]; omega) h
    | checksum cur hdr pay =>
      rw [symbolMove_checksum _ _ _ hw] at h
      have hpay : pay.length = hdr.dlen.toNat := hphase
      exact proceed_ite_inv hs (proceed_more s _) (moveOn_inv (w' := .stop (cur + width) hdr pay) hs hw hpay) h
    | stop cur hdr pay =>
      rw [symbolMove_stop _ _ _ hw] at h
      exact proceed_ite_inv hs (proceed_done s _) (finish_frameResult_inv hs hphase) h

/-- Every instruction keeps the invariant. -/
theorem exec_inv {i : Instr} {s t : State} (hs : s.Inv) (h : exec i s = .next t) : t.Inv := by
  cases hi : i.isRequest with
  | true => exact exec_request_inv hi hs h
  | false =>
    obtain ⟨bs, first, b, width, -, -, hexec⟩ := exec_wire hi
    exact takeSymbol_inv hs (hexec s ▸ h)

/-- Settles O3: a step runs one instruction, or raises an error. -/
theorem stepKeepsInvariant : Obligations.StepKeepsInvariant := by
  unfold Obligations.StepKeepsInvariant
  intro s t hs h
  rcases step_next h with ⟨i, -, hi⟩ | ⟨e, rfl⟩
  · exact exec_inv hs hi
  · exact raise_inv e hs

/-! ### The host's actions -/

/-- A host action that answers a next state has set the request registers, their buffers still canonical, or it was an
issue, or the reset. A read sets them to what they are. -/
theorem actBetween_next {a : HostAction} {s t : State} (h : actBetween a s = .next t) :
    (∃ q, t = { s with req := q } ∧ (s.req.inBuf.wf 255 = true → q.inBuf.wf 255 = true) ∧
      (s.req.rawBuf.wf 522 = true → q.rawBuf.wf 522 = true)) ∨
    step s = .next t ∨ t = State.reset := by
  cases a with
  | writeOp | writeAddr | writeCmd | writeHsum | writeDlen | writeInlen | writeRawlen | writeCur | writeMaxlen =>
    obtain rfl := Host.Outcome.next.inj h
    exact .inl ⟨_, rfl, id, id⟩
  | writeIn i v =>
    simp only [actBetween, hostWriteIn] at h
    split at h
    next hi =>
      obtain rfl := Host.Outcome.next.inj h
      exact .inl ⟨_, rfl, Memory.write_wf v hi, id⟩
    next => cases h
  | writeRaw i v =>
    simp only [actBetween, hostWriteRaw] at h
    split at h
    next hi =>
      obtain rfl := Host.Outcome.next.inj h
      exact .inl ⟨_, rfl, id, Memory.write_wf v hi⟩
    next => cases h
  | writeResult | writeOut | writeRpay => cases h
  | read p =>
    obtain rfl := hostLook_next h
    exact .inl ⟨t.req, rfl, id, id⟩
  | issue => exact .inr (.inl h)
  | reset => exact .inr (.inr (Host.Outcome.next.inj h).symm)

/-- The request registers enter the invariant by their buffers alone. -/
theorem State.Inv.with_req {s : State} {q : ReqRegs} (hs : s.Inv) (hin : q.inBuf.wf 255 = true)
    (hraw : q.rawBuf.wf 522 = true) : State.Inv { s with req := q } := by
  obtain ⟨-, -, hrest⟩ := hs
  exact ⟨hin, hraw, hrest⟩

/-- Settles O4: a write keeps the canonical form of its buffer, and an issue is a step. -/
theorem hostActionKeepsInvariant : Obligations.HostActionKeepsInvariant := by
  unfold Obligations.HostActionKeepsInvariant
  intro a s t hs h
  rcases actBetween_next (act_next h).2 with ⟨q, rfl, hin, hraw⟩ | hstep | rfl
  · obtain ⟨hwfIn, hwfRaw, -⟩ := id hs
    exact hs.with_req (hin hwfIn) (hraw hwfRaw)
  · exact stepKeepsInvariant s t hs hstep
  · exact resetMeetsInvariant

/-- An issue completes its operation (R21, R57). -/
theorem step_idle_next {s t : State} (hw : s.walk = none) (h : step s = .next t) : t.walk = none := by
  rcases step_next h with ⟨i, hi, hexec⟩ | ⟨e, rfl⟩
  · rw [fetch_of_idle hw] at hi
    rcases exec_request_next (fetchOp_isRequest hi) hexec with ⟨r, -, rfl⟩ | ⟨e, rfl⟩
    · exact finish_walk r s
    · exact raise_walk e s
  · exact raise_walk e s

/-- Settles O5: an action falls between operations, and no action but an issue begins one. -/
theorem noOperationIsLeftInProgress : Obligations.NoOperationIsLeftInProgress := by
  unfold Obligations.NoOperationIsLeftInProgress
  intro a s t h
  obtain ⟨hw, hact⟩ := act_next h
  rcases actBetween_next hact with ⟨q, rfl, -, -⟩ | hstep | rfl
  · exact hw
  · exact step_idle_next hw hstep
  · rfl

end Sys2Proof.Machine
end

section
/-! PROOFS. The decoder and the encoder invert each other (R71, R73, R80, R85), and a step runs what the decoder reads
(R21, R33). -/

namespace Sys2Proof.Machine

/-! ### Decoding what was encoded -/

/-- A second byte outside the four canonical pairs makes the non-canonical escape (R73). -/
theorem decodeEscape_of_wf {x : Byte} (h : (Instr.escNoncanonical x).wf = true) :
    decodeEscape x = .escNoncanonical x := by
  have hx : x ∉ canonicalSeconds := by simpa [Instr.wf] using h
  simp only [canonicalSeconds, List.mem_cons, List.not_mem_nil, or_false, not_or] at hx
  obtain ⟨h31, h33, h5D, h5E⟩ := hx
  simp only [decodeEscape, if_neg h31, if_neg h33, if_neg h5D, if_neg h5E]

/-- Settles O10: the operations by their `OP`, the escapes by the second byte of their pair, FLAG at its marker, and a
literal because it is not the escape byte. -/
theorem decodeOfEncodeIsTheInstruction : Obligations.DecodeOfEncodeIsTheInstruction := by
  unfold Obligations.DecodeOfEncodeIsTheInstruction
  intro i hi
  cases i with
  | cksum | stuff | destuff | encode | decode => rfl
  | esc11 => exact decodeWire_field_pair 0x31#8
  | esc13 => exact decodeWire_field_pair 0x33#8
  | esc7D => exact decodeWire_field_pair 0x5D#8
  | esc7E => exact decodeWire_field_pair 0x5E#8
  | escNoncanonical x =>
    intro rest
    have hpair := decodeWire_field_pair x rest
    rwa [decodeEscape_of_wf hi] at hpair
  | flag => exact decodeWire_marker_flag
  | literal b =>
    have hb : b ≠ 0x7D#8 := by simpa [Instr.wf, Config.ESC] using hi
    exact fun rest => decodeWire_field_literal rest hb

/-! ### Encoding what was decoded -/

theorem decodeOp_eq_ok {v : BitVec 3} {i : Instr} (h : decodeOp v = .ok i) : i.wf = true ∧ encode i = .op v := by
  unfold decodeOp at h
  split_ifs at h with hv hv hv hv hv <;> cases h <;> exact ⟨rfl, hv ▸ rfl⟩

/-- Every symbol but FLAG is read at a field (R85). -/
theorem position_decodeEscape (x : Byte) : (decodeEscape x).position = .field := by
  unfold decodeEscape
  split_ifs <;> rfl

/-- The three ways the wire decoder reads a symbol: the marker, an escape pair, or a literal (R72, R73, R174). -/
theorem decodeWire_eq_ok {pos : Position} {bs rest : List Byte} {i : Instr} (h : decodeWire pos bs = .ok (i, rest)) :
    (pos = .marker ∧ bs = 0x7E#8 :: rest ∧ i = .flag) ∨
    (pos = .field ∧ ∃ x, bs = 0x7D#8 :: x :: rest ∧ i = decodeEscape x) ∨
    (pos = .field ∧ ∃ b, b ≠ 0x7D#8 ∧ bs = b :: rest ∧ i = .literal b) := by
  match pos, bs with
  | _, [] => cases h
  | .marker, b :: bs =>
    by_cases hb : b = 0x7E#8
    · subst hb
      rw [decodeWire_marker_flag] at h
      cases h
      exact .inl ⟨rfl, rfl, rfl⟩
    · rw [decodeWire_marker_other bs hb] at h
      cases h
  | .field, b :: bs =>
    by_cases hb : b = 0x7D#8
    · subst hb
      match bs with
      | [] => cases h
      | x :: bs =>
        rw [decodeWire_field_pair] at h
        cases h
        exact .inr (.inl ⟨rfl, x, rfl, rfl⟩)
    · rw [decodeWire_field_literal bs hb] at h
      cases h
      exact .inr (.inr ⟨rfl, b, hb, rfl, rfl⟩)

/-- Settles O11: each reading of the decoder is a row of the encoder's table. -/
theorem encodeOfDecodeIsTheWord : Obligations.EncodeOfDecodeIsTheWord := by
  unfold Obligations.EncodeOfDecodeIsTheWord
  refine ⟨fun v i => decodeOp_eq_ok, fun pos bs rest i h => ?_⟩
  rcases decodeWire_eq_ok h with ⟨rfl, rfl, rfl⟩ | ⟨rfl, x, rfl, rfl⟩ | ⟨rfl, b, hb, rfl, rfl⟩
  · exact ⟨rfl, rfl, [0x7E#8], rfl, rfl⟩
  · obtain ⟨hwf, hencode⟩ := decodeEscape_spec x
    exact ⟨hwf, position_decodeEscape x, [0x7D#8, x], hencode, rfl⟩
  · exact ⟨by simpa [Instr.wf, Config.ESC] using hb, rfl, [b], rfl, rfl⟩

/-! ### The step -/

/-- Inside an operation the step runs the symbol that the bytes at the cursor are (R33, R72). -/
theorem step_of_decodeWire_ok {s : State} {w : Walk} {n : BitVec 10} {bs : List Byte} {i : Instr}
    (hw : s.walk = some w) (hlen : s.req.rawlen = some n) (hcap : n.toNat ≤ 522)
    (hfits : w.cursor.toNat + bs.length ≤ n.toNat) (hat : s.req.rawBuf.HasAt w.cursor.toNat bs)
    (hd : decodeWire w.position bs = .ok (i, [])) : step s = exec i s := by
  have hbelow : ¬ n.toNat ≤ w.cursor.toNat := by
    have := decodeWire_nonempty hd
    omega
  have hfetch : fetch s = .ok i := by
    simp only [fetch, hw, fetchSymbol, rawLength_some hlen hcap, ok_bind, if_neg hbelow,
      symbolBytes_of hat hfits hd, hd]
  simp only [step, hfetch]

/-- Settles O8: an issue by `OP`, a symbol by the bytes at the cursor. -/
theorem stepRunsTheDecodedInstruction : Obligations.StepRunsTheDecodedInstruction := by
  unfold Obligations.StepRunsTheDecodedInstruction
  exact ⟨fun s v i => step_of_decodeOp_ok, fun s w n bs i => step_of_decodeWire_ok⟩

/-- Settles O9: three values of `OP`, then five wire words by their bytes. -/
theorem sampleWordsDecode : Obligations.SampleWordsDecode := by
  unfold Obligations.SampleWordsDecode
  exact ⟨rfl, rfl, rfl, rfl, rfl, rfl, rfl, rfl⟩

end Sys2Proof.Machine
end

section
/-! PROOFS. What an operation reads and what it can report: its own operands (R42, R82), its own errors (R210), and a fault
where an operand it needs holds ⊥ (R41, R243). -/

namespace Sys2Proof.Machine

/-! ### Reading the operands -/

/-- What follows a read matters only for the values it can answer. -/
theorem bind_congr_ok {α β ε : Type} {x : Except ε α} {f g : α → Except ε β} (h : ∀ a, x = .ok a → f a = g a) :
    (x >>= f) = (x >>= g) := by
  cases x with
  | ok a => exact h a rfl
  | error e => rfl

section
variable {s s' : State}

theorem inputLength_congr_inlen (h : s.req.inlen = s'.req.inlen) : inputLength s = inputLength s' := by
  simp only [inputLength, h]

theorem boundedInputLength_congr_inlen (h : s.req.inlen = s'.req.inlen) :
    boundedInputLength s = boundedInputLength s' := by
  simp only [boundedInputLength, inputLength_congr_inlen h]

theorem rawLength_congr_rawlen (h : s.req.rawlen = s'.req.rawlen) : rawLength s = rawLength s' := by
  simp only [rawLength, h]

theorem inputLength_eq_ok {n : Nat} (h : inputLength s = .ok n) : ∃ v, s.req.inlen = some v ∧ v.toNat = n := by
  simpa only [inputLength, bind_eq_ok, operand_eq_ok, Except.ok.injEq] using h

/-- Two states with the same `INLEN` and the same cells of `IN` below it: the first operand of CKSUM, STUFF and ENCODE. -/
def SameInput (s s' : State) : Prop :=
  s.req.inlen = s'.req.inlen ∧
    ∀ n k, s.req.inlen = some n → k < n.toNat → s.req.inBuf.read k = s'.req.inBuf.read k

/-- Two states with the same `RAWLEN` and the same cells of `RAW` below it: the first operand of DESTUFF and DECODE. -/
def SameRaw (s s' : State) : Prop :=
  s.req.rawlen = s'.req.rawlen ∧
    ∀ n k, s.req.rawlen = some n → k < n.toNat → s.req.rawBuf.read k = s'.req.rawBuf.read k

/-- `IN` is read below `INLEN` only (R41, R42). -/
theorem SameInput.readInput_eq (h : SameInput s s') {n : BitVec 16} (hn : s.req.inlen = some n) :
    readInput s.req.inBuf n.toNat 0 = readInput s'.req.inBuf n.toNat 0 :=
  readInput_congr fun k hk => h.2 n (0 + k) hn (by simpa using hk)

/-- `RAW` is read below `RAWLEN` only (R42, R59). -/
theorem SameRaw.read_eq (h : SameRaw s s') {n : Nat} (hn : rawLength s = .ok n) :
    ∀ k, k < n → s.req.rawBuf.read k = s'.req.rawBuf.read k := by
  obtain ⟨hcap, hlen⟩ := rawLength_eq_ok hn
  have hwidth : (BitVec.ofNat 10 n).toNat = n := by
    rw [BitVec.toNat_ofNat, Nat.mod_eq_of_lt (by omega)]
  exact fun k hk => h.2 _ k hlen (hk.trans_eq hwidth.symm)

end

/-- Settles O14: each rule reads a length, then cells below it and scalar registers, all of them among the operands. -/
theorem operationReadsOnlyItsOperands : Obligations.OperationReadsOnlyItsOperands := by
  unfold Obligations.OperationReadsOnlyItsOperands
  intro i s s' h
  cases i with
  | cksum =>
    obtain ⟨hin, hhsum, hdlen⟩ : SameInput s s' ∧ s.req.hsum = s'.req.hsum ∧ s.req.dlen = s'.req.dlen := h
    simp only [exec, execCksum, ← boundedInputLength_congr_inlen hin.1, ← hhsum, ← hdlen]
    rw [bind_congr_ok fun n hn => ?_]
    · exact SameReport.conclude
    · obtain ⟨-, v, hv, rfl⟩ := boundedInputLength_eq_ok hn
      rw [hin.readInput_eq hv]
  | stuff =>
    have hin : SameInput s s' := h
    simp only [exec, execStuff, ← boundedInputLength_congr_inlen hin.1]
    rw [bind_congr_ok fun n hn => ?_]
    · exact SameReport.conclude
    · obtain ⟨-, v, hv, rfl⟩ := boundedInputLength_eq_ok hn
      rw [hin.readInput_eq hv]
  | encode =>
    obtain ⟨hin, haddr, hcmd⟩ : SameInput s s' ∧ s.req.addr = s'.req.addr ∧ s.req.cmd = s'.req.cmd := h
    simp only [exec, execEncode, ← inputLength_congr_inlen hin.1, ← haddr, ← hcmd]
    rw [bind_congr_ok fun n hn => ?_]
    · exact SameReport.conclude
    · obtain ⟨v, hv, rfl⟩ := inputLength_eq_ok hn
      rw [hin.readInput_eq hv]
  | destuff =>
    obtain ⟨hraw, hcur⟩ : SameRaw s s' ∧ s.req.cur = s'.req.cur := h
    simp only [exec, execDestuff, ← rawLength_congr_rawlen hraw.1, ← hcur]
    rw [bind_congr_ok fun n hn => ?_]
    · exact SameReport.conclude
    · simp only [destuff_congr (hraw.read_eq hn)]
  | decode =>
    obtain ⟨hraw, hmax⟩ : SameRaw s s' ∧ s.req.maxlen = s'.req.maxlen := h
    simp only [exec, execDecode, ← rawLength_congr_rawlen hraw.1, ← hmax]
    rw [bind_congr_ok fun n hn => ?_]
    · exact SameReport.conclude
    · simp only [decodeFrame_congr (hraw.read_eq hn)]
  | esc11 | esc13 | esc7D | esc7E | escNoncanonical | flag | literal => exact h.elim

/-! ### Errors -/

/-- A DECODE that raises an error raises one of its own (R172, R190). -/
theorem exec_decode_next_err {s t : State} (h : exec .decode s = .next t) :
    t.res.err = none ∨ ∃ e : ErrKind, t = raise e s ∧ 2 ≤ e.code.toNat ∧ e.code.toNat ≤ 7 := by
  rcases conclude_next h with ⟨r, hr, rfl⟩ | ⟨e, he, rfl⟩
  · simp only [bind_eq_ok, Except.ok.injEq] at hr
    obtain ⟨n, -, m, -, ⟨hdr, pay⟩, -, rfl⟩ := hr
    exact .inl rfl
  · simp only [bind_eq_error] at he
    rcases he with he | ⟨_, -, he | ⟨_, -, he | ⟨_, -, he⟩⟩⟩
    · exact absurd he (rawLength_not_raised _ _)
    · exact absurd he (operand_not_raised _ _ _)
    · exact .inr ⟨e, rfl, decodeFrame_raised he⟩
    · cases he

/-- `ERR` holds the code of the error raised (R211). -/
theorem code_of_raise_err {e : ErrKind} {s : State} {c : BitVec 4} (h : (raise e s).res.err = some c) : c = e.code :=
  (Option.some.inj h).symm

/-- Settles O16: `ERR` is ⊥ where an operation finishes, so it has raised. -/
theorem errorCodesOfEachOperation : Obligations.ErrorCodesOfEachOperation := by
  unfold Obligations.ErrorCodesOfEachOperation
  intro s t c herr
  refine ⟨fun h => ?_, fun h => ?_, fun h => ?_, fun h => ?_, fun h => ?_⟩
  · obtain ⟨p, hs, dl, -, -, -, rfl⟩ := exec_cksum_next h
    cases herr
  · obtain ⟨p, -, rfl⟩ := exec_stuff_next h
    cases herr
  · rcases exec_encode_next h with ⟨p, a, c', -, -, -, rfl⟩ | ⟨n, -, -, rfl⟩
    · cases herr
    · exact code_of_raise_err herr
  · rcases exec_destuff_next h with ⟨n, cur, b, nx, -, -, -, -, rfl⟩ | rfl
    · cases herr
    · exact code_of_raise_err herr
  · rcases exec_decode_next_err h with hnone | ⟨e, rfl, hrange⟩
    · rw [hnone] at herr
      cases herr
    · rwa [code_of_raise_err herr]

end Sys2Proof.Machine
end

section
/-! PROOFS. The size of a receive frame (R77), and where the frame decoder stops before the checksum: a field that is not
read (R175 to R179), too few payload bytes (R177), a cell that holds ⊥ (R41). -/

namespace Sys2Proof.Machine

/-! ### The size of a receive frame -/

/-- The length of a stuffed payload's longest D, 255, is not reserved (R77). -/
theorem reservedCount_length_le {p : List Byte} (hp : p.length ≤ 255) :
    p.length + reservedCount [BitVec.ofNat 8 p.length] ≤ 255 := by
  by_cases hmax : p.length = 255
  · have hplain : reservedCount [BitVec.ofNat 8 p.length] = 0 := by
      rw [hmax]
      rfl
    omega
  · have hone := reservedCount_le [BitVec.ofNat 8 p.length]
    rw [List.length_singleton] at hone
    omega

/-- Settles O34: two markers around one stuffed sequence of D + 5 bytes. -/
theorem receiveFrameSize : Obligations.ReceiveFrameSize := by
  unfold Obligations.ReceiveFrameSize
  intro a c st p hp
  have hsize : (receiveFrame a c st p).length = 7 + p.length +
      reservedCount ([a, c, st, BitVec.ofNat 8 p.length] ++ p ++ [receiveChecksum a c st p]) := by
    simp only [receiveFrame_eq, List.length_append, List.length_cons, List.length_nil, stuff_length]
    omega
  have hsplit : reservedCount ([a, c, st, BitVec.ofNat 8 p.length] ++ p ++ [receiveChecksum a c st p]) =
      reservedCount [a, c, st] + reservedCount [BitVec.ofNat 8 p.length] + reservedCount p +
        reservedCount [receiveChecksum a c st p] := by
    simp only [← reservedCount_append, List.cons_append, List.nil_append]
  have hheader := reservedCount_le [a, c, st]
  have hlength := reservedCount_length_le hp
  have hpayload := reservedCount_le p
  have hcrc := reservedCount_le [receiveChecksum a c st p]
  simp only [List.length_cons, List.length_nil] at hheader hcrc
  omega

/-! ### DECODE stops where a field is not read -/

section
variable {m : Memory} {n : Nat} {maxlen a c st d : Byte} {w p bs : List Byte} {e : Stop}

/-- In HEADER (R175). -/
theorem decodeFrame_header_stops (hn : 7 ≤ n) (hm : m.HasAt 0 (0x7E#8 :: w)) (hw : FieldsOf w bs) (hb : bs.length < 4)
    (hl : w.length + 1 ≤ n) (hd : destuff m n (w.length + 1) = .error e) : decodeFrame m n maxlen = .error e := by
  obtain ⟨h0, hat⟩ := Memory.hasAt_cons.mp hm
  have hheader : headerFields m n 1 = .error e :=
    headerFields_stops hw hb hat (by omega) (by rwa [Nat.add_comm])
  rw [decodeFrame_start hn h0, hheader, error_bind]

/-- With the header and the first payload bytes in the buffer, DECODE goes on with PAYLOAD after them (R176). -/
theorem decodeFrame_payloadFrom (hn : 7 ≤ n) (hm : m.HasAt 0 (0x7E#8 :: w)) (hw : FieldsOf w ([a, c, st, d] ++ p))
    (hl : w.length + 1 ≤ n) (hpd : p.length ≤ d.toNat) (hpm : p.length ≤ maxlen.toNat) :
    decodeFrame m n maxlen = (do
      let (pay, cur) ← payloadFields m n (min d.toNat maxlen.toNat - p.length) (w.length + 1) p
      if pay.length < d.toNat then .error (.raised .incompleteResponse)
      else do
        let (crc, cur) ← destuff m n cur
        if crc ≠ cksum (a + c + st) d pay then .error (.raised .checksumMismatch)
        else do
          stopMarker m n cur
          .ok (⟨a, c, st, d⟩, pay)) := by
  obtain ⟨u, v, rfl, hu, hv⟩ := hw.split
  obtain ⟨h0, hat⟩ := Memory.hasAt_cons.mp hm
  obtain ⟨hmu, hmv⟩ := Memory.hasAt_append.mp hat
  have hl' : u.length + v.length + 1 ≤ n := by rwa [List.length_append] at hl
  have hk : min d.toNat maxlen.toNat = p.length + (min d.toNat maxlen.toNat - p.length) := by omega
  have hcur : 0 + 1 + u.length + v.length = (u ++ v).length + 1 := by
    rw [List.length_append]
    omega
  have hrun := payloadFields_run (n := n) (k := min d.toNat maxlen.toNat - p.length) (acc := []) hv hmv (by omega)
  rw [← hk, hcur, List.nil_append] at hrun
  rw [decodeFrame_header hn h0 hu hmu (by omega), hrun]

/-- In PAYLOAD, while fewer than D and `MAXLEN` bytes are obtained (R176). -/
theorem decodeFrame_payload_stops (hn : 7 ≤ n) (hm : m.HasAt 0 (0x7E#8 :: w)) (hw : FieldsOf w ([a, c, st, d] ++ p))
    (hl : w.length + 1 < n) (hpd : p.length < d.toNat) (hpm : p.length < maxlen.toNat)
    (hd : destuff m n (w.length + 1) = .error e) : decodeFrame m n maxlen = .error e := by
  obtain ⟨k, hk⟩ : ∃ k, min d.toNat maxlen.toNat - p.length = k + 1 :=
    ⟨min d.toNat maxlen.toNat - p.length - 1, by omega⟩
  rw [decodeFrame_payloadFrom hn hm hw hl.le hpd.le hpm.le, hk, payloadFields, if_pos hl, hd, error_bind, error_bind]

/-- In CHECKSUM, once D bytes are obtained (R179). -/
theorem decodeFrame_checksum_stops (hn : 7 ≤ n) (hm : m.HasAt 0 (0x7E#8 :: w)) (hw : FieldsOf w ([a, c, st, d] ++ p))
    (hl : w.length + 1 ≤ n) (hpd : p.length = d.toNat) (hpm : p.length ≤ maxlen.toNat)
    (hd : destuff m n (w.length + 1) = .error e) : decodeFrame m n maxlen = .error e := by
  obtain ⟨h0, hat⟩ := Memory.hasAt_cons.mp hm
  rw [decodeFrame_payload hn h0 hw hat (by omega) hpd hpm, Nat.add_comm, hd, error_bind]

/-- PAYLOAD ends below D where `MAXLEN` is reached or `RAW` ends (R177). -/
theorem decodeFrame_incomplete (hn : 7 ≤ n) (hm : m.HasAt 0 (0x7E#8 :: w)) (hw : FieldsOf w ([a, c, st, d] ++ p))
    (hl : w.length + 1 ≤ n) (hpd : p.length < d.toNat) (hpm : p.length ≤ maxlen.toNat)
    (hend : p.length = maxlen.toNat ∨ n = w.length + 1) :
    decodeFrame m n maxlen = .error (.raised .incompleteResponse) := by
  have hpay : payloadFields m n (min d.toNat maxlen.toNat - p.length) (w.length + 1) p = .ok (p, w.length + 1) := by
    rcases hend with hmax | hraw
    · have hnone : min d.toNat maxlen.toNat - p.length = 0 := by omega
      rw [hnone, payloadFields_zero]
    · exact payloadFields_end _ _ hraw.le
  rw [decodeFrame_payloadFrom hn hm hw hl hpd.le hpm, hpay, ok_bind]
  exact if_pos hpd

end

/-! ### The bytes of the buffer before the field that is not read -/

/-- Bytes presented in `RAW`, cut after its fields `w`: the rest stands at cell |w| + 1. -/
theorem State.Raw.hasAt_tail {s : State} {w tail : List Byte} {n : Nat} (h : s.Raw (0x7E#8 :: w ++ tail) n) :
    s.req.rawBuf.HasAt 0 (0x7E#8 :: w) ∧ s.req.rawBuf.HasAt (w.length + 1) tail := by
  have hat := Memory.hasAt_append.mp h.hasAt
  rwa [Nat.zero_add, List.length_cons] at hat

theorem length_marker_append (w tail : List Byte) : (0x7E#8 :: w ++ tail).length = w.length + 1 + tail.length := by
  rw [List.length_append, List.length_cons]

section
variable {s : State} {f : List Byte} {n : Nat} {m : Byte} (hraw : s.Raw f n) (hmax : s.req.maxlen = some m)
include hraw hmax

/-- DECODE ends in the error its frame function raises (R172). -/
theorem State.Raw.decode_raised {e : ErrKind} (hd : decodeFrame s.req.rawBuf n m = .error (.raised e)) :
    EndsInError (exec .decode s) s e.code := by
  obtain ⟨-, hcap, hlen, -⟩ := hraw
  exact exec_decode_raised hcap hlen hmax hd

/-- DECODE faults where its frame function does (R41). -/
theorem State.Raw.decode_fault {e : Fault} (hd : decodeFrame s.req.rawBuf n m = .error (.fault e)) :
    exec .decode s = .fault e := by
  obtain ⟨-, hcap, hlen, -⟩ := hraw
  exact exec_decode_fault hcap hlen hmax hd

end

/-- Settles O37: the field after the last one read is missing or a lone escape, in each of the three phases. -/
theorem decodeTruncatedFrame : Obligations.DecodeTruncatedFrame := by
  unfold Obligations.DecodeTruncatedFrame
  refine ⟨fun s m w bs tail hw hb ht hn hraw hmax => ?_, fun s m a c st d w p hw hpd hpm hn hraw hmax => ?_,
    fun s m a c st d w p tail hw hpd hpm ht hn hraw hmax => ?_⟩
  · obtain ⟨hat, hatTail⟩ := hraw.hasAt_tail
    have hlength := length_marker_append w tail
    exact hraw.decode_raised (e := .truncatedFrame) hmax
      (decodeFrame_header_stops hn hat hw hb (by omega) (destuff_tail ht hatTail hlength))
  · obtain ⟨hat, hatTail⟩ := hraw.hasAt_tail
    exact hraw.decode_raised (e := .truncatedFrame) hmax
      (decodeFrame_payload_stops hn hat hw (by omega) hpd hpm (destuff_tail (.inr rfl) hatTail rfl))
  · obtain ⟨hat, hatTail⟩ := hraw.hasAt_tail
    have hlength := length_marker_append w tail
    exact hraw.decode_raised (e := .truncatedFrame) hmax
      (decodeFrame_checksum_stops hn hat hw (by omega) hpd hpm (destuff_tail ht hatTail hlength))

/-- Settles O38: both ends of the payload loop below D. -/
theorem decodeIncompleteResponse : Obligations.DecodeIncompleteResponse := by
  unfold Obligations.DecodeIncompleteResponse
  intro s n m a c st d w p hw hpd hn hraw hmax hend
  have hat := hraw.hasAt
  have hpm : p.length ≤ m.toNat := hend.elim le_of_eq And.left
  exact hraw.decode_raised (e := .incompleteResponse) hmax
    (decodeFrame_incomplete hn hat hw hraw.1 hpd hpm (hend.imp_right And.right))

/-! ### DECODE on a buffer of values -/

/-- Bytes presented up to `RAWLEN` leave no cell below it ⊥. -/
theorem State.Raw.read_ne_none {s : State} {f : List Byte} (h : s.Raw f f.length) :
    ∀ k, k < f.length → s.req.rawBuf.read k ≠ none := by
  obtain ⟨-, -, -, hcell⟩ := h
  intro k hk
  rw [hcell k hk, List.getElem?_eq_getElem hk]
  exact Option.some_ne_none _

/-- Settles O44: no read below `RAWLEN` faults, so the frame function answers a frame or raises one of its errors. -/
theorem decodeEndsOnEveryBuffer : Obligations.DecodeEndsOnEveryBuffer := by
  unfold Obligations.DecodeEndsOnEveryBuffer
  intro s f m hraw hmax
  have hclean := clean_decodeFrame (x := m) hraw.read_ne_none
  obtain ⟨-, hcap, hlen, -⟩ := hraw
  rw [exec_decode_of hcap hlen hmax]
  cases hframe : decodeFrame s.req.rawBuf f.length m with
  | ok r => exact ⟨_, rfl, .inl rfl⟩
  | error e =>
    obtain ⟨k, rfl⟩ := hclean e hframe
    obtain ⟨hlow, hhigh⟩ := decodeFrame_raised hframe
    exact ⟨_, rfl, .inr ⟨k.code, hlow, hhigh, rfl⟩⟩

end Sys2Proof.Machine
end

section
/-! PROOFS. An operand or a cell that an operation needs and that holds ⊥ is a fault that names it (R41, R243). -/

namespace Sys2Proof.Machine

/-! ### Registers -/

theorem inputLength_none {s : State} (h : s.req.inlen = none) :
    inputLength s = .error (.fault (.noValue (.req .inlen))) := by
  simp only [inputLength, h, operand_none, error_bind]

theorem exec_fault_of_inlen_none {s : State} (h : s.req.inlen = none) :
    exec .cksum s = .fault (.noValue (.req .inlen)) ∧ exec .stuff s = .fault (.noValue (.req .inlen)) ∧
      exec .encode s = .fault (.noValue (.req .inlen)) := by
  have hbounded := boundedInputLength_none h
  have hlength := inputLength_none h
  exact ⟨by simp [exec, execCksum, hbounded], by simp [exec, execStuff, hbounded], by simp [exec, execEncode, hlength]⟩

theorem exec_fault_of_rawlen_none {s : State} (h : s.req.rawlen = none) :
    exec .destuff s = .fault (.noValue (.req .rawlen)) ∧ exec .decode s = .fault (.noValue (.req .rawlen)) := by
  have hlength := rawLength_none h
  exact ⟨by simp [exec, execDestuff, hlength], by simp [exec, execDecode, hlength]⟩

section
variable {s : State} {p : List Byte} (hp : s.Input p)
include hp

/-- CKSUM with its input read goes on with `HSUM`, then `DLEN` (R102). -/
theorem exec_cksum_input :
    exec .cksum s = conclude s (do
      let hs ← operand (.req .hsum) s.req.hsum
      let dl ← operand (.req .dlen) s.req.dlen
      .ok { ResRegs.blank with rbyte := some (cksum hs dl p) }) := by
  obtain ⟨-, hlength, hcells⟩ := hp.read
  simp only [exec, execCksum, hlength, hcells, ok_bind]

/-- ENCODE with its input read goes on with `ADDR`, then `CMD` (R151). -/
theorem exec_encode_input :
    exec .encode s = conclude s (do
      let a ← operand (.req .addr) s.req.addr
      let c ← operand (.req .cmd) s.req.cmd
      let f ← encodeFrame a c p
      .ok (outResult f)) := by
  obtain ⟨hlength, -, hcells⟩ := hp.read
  have hcap : ¬ p.length > Config.MAX_PAYLOAD := hp.1.not_gt
  simp only [exec, execEncode, hlength, hcells, ok_bind, if_neg hcap]

theorem exec_fault_of_scalar_none :
    (s.req.hsum = none → exec .cksum s = .fault (.noValue (.req .hsum))) ∧
    (s.req.hsum ≠ none → s.req.dlen = none → exec .cksum s = .fault (.noValue (.req .dlen))) ∧
    (s.req.addr = none → exec .encode s = .fault (.noValue (.req .addr))) ∧
    (s.req.addr ≠ none → s.req.cmd = none → exec .encode s = .fault (.noValue (.req .cmd))) := by
  rw [exec_cksum_input hp, exec_encode_input hp]
  refine ⟨fun hhsum => ?_, fun hhsum hdlen => ?_, fun haddr => ?_, fun haddr hcmd => ?_⟩
  · rw [hhsum]
    rfl
  · obtain ⟨hs, hhs⟩ := Option.ne_none_iff_exists'.mp hhsum
    rw [hhs, hdlen]
    rfl
  · rw [haddr]
    rfl
  · obtain ⟨a, ha⟩ := Option.ne_none_iff_exists'.mp haddr
    rw [ha, hcmd]
    rfl

end

theorem State.Raw.exec_fault_of_scalar_none {s : State} {f : List Byte} {n : Nat} (h : s.Raw f n) :
    (s.req.cur = none → exec .destuff s = .fault (.noValue (.req .cur))) ∧
    (s.req.maxlen = none → exec .decode s = .fault (.noValue (.req .maxlen))) := by
  obtain ⟨-, hcap, hlen, -⟩ := h
  have hlength := rawLength_ofNat hlen hcap
  exact ⟨fun hcur => by simp [exec, execDestuff, hlength, hcur], fun hmax => by simp [exec, execDecode, hlength, hmax]⟩

/-! ### Cells of `IN` -/

/-- The first cell of `IN` below `INLEN` that holds ⊥ is the fault of every operation that reads `IN`. -/
theorem exec_fault_of_input_none {s : State} {p : List Byte} {n : BitVec 16} (hlen : s.req.inlen = some n)
    (hcap : n.toNat ≤ 255) (hp : p.length < n.toNat) (hcell : ∀ k, k < p.length → s.req.inBuf.read k = p[k]?)
    (hbot : s.req.inBuf.read p.length = none) :
    exec .cksum s = .fault (.noValue (.cell .inSpace p.length)) ∧
    exec .stuff s = .fault (.noValue (.cell .inSpace p.length)) ∧
    exec .encode s = .fault (.noValue (.cell .inSpace p.length)) := by
  have hread := readInput_fault s.req.inBuf p n.toNat 0 hp (by simpa using hcell) (by simpa using hbot)
  rw [Nat.zero_add] at hread
  have hbounded := boundedInputLength_some hlen hcap
  have hlength := inputLength_some hlen
  have hmax : ¬ n.toNat > Config.MAX_PAYLOAD := hcap.not_gt
  refine ⟨?_, ?_, ?_⟩
  · simp only [exec, execCksum, hbounded, hread, ok_bind, error_bind, conclude_error, halt_fault]
  · simp only [exec, execStuff, hbounded, hread, ok_bind, error_bind, conclude_error, halt_fault]
  · simp only [exec, execEncode, hlength, hread, if_neg hmax, ok_bind, error_bind, conclude_error, halt_fault]

/-! ### Cells of `RAW` -/

/-- A cell of the field at `CUR` that holds ⊥, the first one or the one after an escape, is the fault of DESTUFF (R126). -/
theorem exec_destuff_fault {s : State} {n cur : BitVec 10} {tail : List Byte} (hlen : s.req.rawlen = some n)
    (hcap : n.toNat ≤ 522) (hcur : s.req.cur = some cur) (ht : tail = [] ∨ tail = [0x7D#8])
    (hat : s.req.rawBuf.HasAt cur.toNat tail) (hl : cur.toNat + tail.length < n.toNat)
    (hbot : s.req.rawBuf.read (cur.toNat + tail.length) = none) :
    exec .destuff s = .fault (.noValue (.cell .rawSpace (cur.toNat + tail.length))) := by
  have hd := destuff_fault ht hat hl hbot
  simp only [exec, execDestuff, rawLength_some hlen hcap, hcur, operand_some, hd, ok_bind, error_bind, conclude_error,
    halt_fault]

/-- Past the gate the start cell is the first that DECODE reads (R174). -/
theorem decodeFrame_start_fault {m : Memory} {n : Nat} {maxlen : Byte} (hn : 7 ≤ n) (hbot : m.read 0 = none) :
    decodeFrame m n maxlen = .error (.fault (.noValue (.cell .rawSpace 0))) := by
  have hgate : ¬ n < Config.MIN_RX_FRAME := hn.not_gt
  simp only [decodeFrame, if_neg hgate, readRaw, hbot, operand_none, error_bind]

/-- Settles O47: the registers in the order of the pseudocode, then the cells of `IN`, then each cell of `RAW` that a field,
the start or the stop is read from. -/
theorem missingOperandFaults : Obligations.MissingOperandFaults := by
  unfold Obligations.MissingOperandFaults
  refine ⟨fun s => exec_fault_of_inlen_none, fun s => exec_fault_of_rawlen_none, fun s p => exec_fault_of_scalar_none,
    fun s n => State.Raw.exec_fault_of_scalar_none, ?destuffFirst, ?start, fun s p n => exec_fault_of_input_none,
    ?destuffSecond, ?header, ?payloadOrChecksum, ?stop⟩
  case destuffFirst =>
    intro s n cur hlen hcap hcur hl hbot
    exact exec_destuff_fault hlen hcap hcur (.inl rfl) (Memory.hasAt_nil _ _) hl hbot
  case start =>
    intro s n m hlen hcap hn hmax hbot
    have hraw : s.Raw [] n.toNat :=
      ⟨Nat.zero_le _, hcap, by simpa using hlen, fun k hk => absurd hk (Nat.not_lt_zero k)⟩
    exact hraw.decode_fault hmax (decodeFrame_start_fault hn hbot)
  case destuffSecond =>
    intro s n cur hlen hcap hcur hl hesc hbot
    exact exec_destuff_fault hlen hcap hcur (.inr rfl) (Memory.hasAt_singleton.mpr hesc) hl hbot
  case header =>
    intro s n m w bs tail hw hb ht hn hraw hmax hl hbot
    obtain ⟨hat, hatTail⟩ := hraw.hasAt_tail
    rw [length_marker_append] at hl hbot ⊢
    exact hraw.decode_fault hmax
      (decodeFrame_header_stops hn hat hw hb (by omega) (destuff_fault ht hatTail hl hbot))
  case payloadOrChecksum =>
    intro s n m a c st d w p tail hw hp ht hn hraw hmax hl hbot
    obtain ⟨hat, hatTail⟩ := hraw.hasAt_tail
    rw [length_marker_append] at hl hbot ⊢
    have hfield := destuff_fault ht hatTail hl hbot
    refine hraw.decode_fault hmax ?_
    rcases hp with ⟨hpd, hpm⟩ | ⟨hpd, hpm⟩
    · exact decodeFrame_payload_stops hn hat hw (by omega) hpd hpm hfield
    · exact decodeFrame_checksum_stops hn hat hw (by omega) hpd hpm hfield
  case stop =>
    intro s n m a c st d w p hw hpd hpm hn hraw hmax hl hbot
    rw [List.length_cons] at hl hbot ⊢
    refine hraw.decode_fault hmax ?_
    rw [decodeFrame_stop hn hw hraw.hasAt hl.le hpd hpm, stopMarker_fault hl hbot, error_bind]

end Sys2Proof.Machine
end

section
/-! PROOFS. The host: a write sets its own place (R22, R43), what is refused to it (R43, R81), and the requests of the
assembler notation, run (R84). -/

namespace Sys2Proof.Machine

/-! ### A host write -/

/-- The request registers after a host write; `act_write` ties this to the action. An action that is no write of a request
register or cell leaves them. -/
def HostAction.written (q : ReqRegs) : HostAction → ReqRegs
  | .writeOp v => { q with op := some v }
  | .writeAddr v => { q with addr := some v }
  | .writeCmd v => { q with cmd := some v }
  | .writeHsum v => { q with hsum := some v }
  | .writeDlen v => { q with dlen := some v }
  | .writeInlen v => { q with inlen := some v }
  | .writeIn i v => { q with inBuf := q.inBuf.write i v }
  | .writeRawlen v => { q with rawlen := some v }
  | .writeRaw i v => { q with rawBuf := q.rawBuf.write i v }
  | .writeCur v => { q with cur := some v }
  | .writeMaxlen v => { q with maxlen := some v }
  | .writeResult _ => q
  | .writeOut _ => q
  | .writeRpay _ => q
  | .read _ => q
  | .issue => q
  | .reset => q

section
variable {a : HostAction} {s : State} {p : Place} {v : Nat}

/-- Between operations a write to a place that exists sets the request registers (R22, R50). -/
theorem act_write (ha : a.target = some (p, v)) (hp : p.present = true) (hw : s.walk = none) :
    act a s = .next { s with req := a.written s.req } := by
  rw [act_of_between hw]
  cases a with
  | writeOp | writeAddr | writeCmd | writeHsum | writeDlen | writeInlen | writeRawlen | writeCur | writeMaxlen => rfl
  | writeIn i b =>
    obtain ⟨rfl, -⟩ := Prod.mk.inj (Option.some.inj ha)
    exact if_pos ((present_cell _ _).mp hp)
  | writeRaw i b =>
    obtain ⟨rfl, -⟩ := Prod.mk.inj (Option.some.inj ha)
    exact if_pos ((present_cell _ _).mp hp)
  | writeResult | writeOut | writeRpay | read | issue | reset => cases ha

/-- After a write a request register holds the value written, if it is the place, and else what it held. -/
theorem value_written_req (ha : a.target = some (p, v)) (r : ReqName) :
    State.value { s with req := a.written s.req } (.req r) = if .req r = p then some v else s.value (.req r) := by
  cases a with
  | writeOp | writeAddr | writeCmd | writeHsum | writeDlen | writeInlen | writeRawlen | writeCur | writeMaxlen =>
    obtain ⟨rfl, rfl⟩ := Prod.mk.inj (Option.some.inj ha)
    cases r <;> rfl
  | writeIn | writeRaw =>
    obtain ⟨rfl, rfl⟩ := Prod.mk.inj (Option.some.inj ha)
    cases r <;> rfl
  | writeResult | writeOut | writeRpay | read | issue | reset => cases ha

/-- After a write a cell holds the byte written, if it is the place, and else what it held (R52). -/
theorem value_written_cell (ha : a.target = some (p, v)) (b : Space) (k : Nat) :
    State.value { s with req := a.written s.req } (.cell b k) =
      if .cell b k = p then some v else s.value (.cell b k) := by
  cases a with
  | writeOp | writeAddr | writeCmd | writeHsum | writeDlen | writeInlen | writeRawlen | writeCur | writeMaxlen =>
    obtain ⟨rfl, rfl⟩ := Prod.mk.inj (Option.some.inj ha)
    cases b <;> rfl
  | writeIn | writeRaw =>
    obtain ⟨rfl, rfl⟩ := Prod.mk.inj (Option.some.inj ha)
    cases b <;>
      simp [State.value, State.buffer, HostAction.written, Memory.read_write, apply_ite (Option.map BitVec.toNat)]
  | writeResult | writeOut | writeRpay | read | issue | reset => cases ha

/-- A write sets its place and no other (R22). -/
theorem value_written (ha : a.target = some (p, v)) (q : Place) :
    State.value { s with req := a.written s.req } q = if q = p then some v else s.value q := by
  cases q with
  | req r => exact value_written_req ha r
  | cell b k => exact value_written_cell ha b k
  | res r =>
    have hne : .res r ≠ p := by
      rintro rfl
      cases a <;> cases ha
    rw [if_neg hne]
    cases r <;> rfl

end

/-- Settles O48: the request registers alone are written, at the place alone. -/
theorem hostWriteSetsOnlyItsPlace : Obligations.HostWriteSetsOnlyItsPlace := by
  unfold Obligations.HostWriteSetsOnlyItsPlace
  intro a s p v ha hp hw
  exact ⟨_, act_write ha hp hw, (value_written ha p).trans (if_pos rfl),
    fun q hq => (value_written ha q).trans (if_neg hq), rfl, hw⟩

/-! ### What the host may do -/

/-- Settles O50: the writes by O48, the rest by the arm of the action. -/
theorem hostAccessRules : Obligations.HostAccessRules := by
  unfold Obligations.HostAccessRules
  refine ⟨fun a s p v hw ha hp => ⟨_, act_write ha hp hw⟩, fun a s hw => if_neg hw, fun s hw => ?_⟩
  refine ⟨fun r => act_of_between hw, fun i => act_of_between hw, fun i => act_of_between hw, fun v hop hv => ?_,
    fun p hp hv => ?_⟩
  · rw [act_of_between hw]
    exact step_of_op_reserved hw hop hv
  · rw [act_of_between hw, actBetween, hostLook, hostRead_none hp hv]

/-! ### The requests, run -/

/-- The request registers after the writes `as`, in their order. -/
def writtenAll (q : ReqRegs) (as : List HostAction) : ReqRegs := as.foldl HostAction.written q

/-- A run goes through the writes of scalar registers it begins with (R61). -/
theorem runActions_writes {as : List HostAction} (rest : List HostAction) {s : State} (hw : s.walk = none)
    (has : ∀ a ∈ as, ∃ r v, a.target = some (.req r, v)) :
    runActions (as ++ rest) s = runActions rest { s with req := writtenAll s.req as } := by
  induction as generalizing s with
  | nil => rfl
  | cons a as ih =>
    obtain ⟨r, v, ha⟩ := has a (List.mem_cons_self ..)
    simp only [List.cons_append, runActions, act_write ha rfl hw]
    exact ih hw fun a' h => has a' (List.mem_cons_of_mem a h)

section
variable {as : List HostAction} {s : State} {v : BitVec 3} {i : Instr}

/-- The state after the writes of the scalar registers `as` and of the bytes `p` into `IN`. -/
def afterInput (s : State) (as : List HostAction) (p : List Byte) : State :=
  { s with req := { writtenAll s.req as with inBuf := Memory.writeAll 0 p s.req.inBuf } }

/-- The state after the writes of the scalar registers `as` and of the bytes `r` into `RAW`. -/
def afterRaw (s : State) (as : List HostAction) (r : List Byte) : State :=
  { s with req := { writtenAll s.req as with rawBuf := Memory.writeAll 0 r s.req.rawBuf } }

/-- Writes of scalar registers write no cell. -/
theorem buffers_writtenAll (q : ReqRegs) (has : ∀ a ∈ as, ∃ r v, a.target = some (.req r, v)) :
    (writtenAll q as).inBuf = q.inBuf ∧ (writtenAll q as).rawBuf = q.rawBuf := by
  induction as generalizing q with
  | nil => exact ⟨rfl, rfl⟩
  | cons a as ih =>
    obtain ⟨r, v, ha⟩ := has a (List.mem_cons_self ..)
    obtain ⟨hin, hraw⟩ := ih (a.written q) fun a' h => has a' (List.mem_cons_of_mem a h)
    have hone : (a.written q).inBuf = q.inBuf ∧ (a.written q).rawBuf = q.rawBuf := by
      cases a with
      | writeIn | writeRaw => cases ha
      | writeOp | writeAddr | writeCmd | writeHsum | writeDlen | writeInlen | writeRawlen | writeCur | writeMaxlen |
        writeResult | writeOut | writeRpay | read | issue | reset => exact ⟨rfl, rfl⟩
    exact ⟨hin.trans hone.1, hraw.trans hone.2⟩

/-- An `issue` whose `OP` decodes is the decoded operation (R80). -/
theorem runActions_issue_decoded (hw : s.walk = none) (hop : s.req.op = some v) (hd : decodeOp v = .ok i) :
    runActions [.issue] s = exec i s :=
  (runActions_issue hw).trans (step_of_decodeOp_ok hw hop hd)

/-- A request with its bytes in `IN` runs its operation on the state it writes (R84). -/
theorem runActions_input {p : List Byte} (hw : s.walk = none) (has : ∀ a ∈ as, ∃ r v, a.target = some (.req r, v))
    (hp : p.length ≤ 255) (hop : (writtenAll s.req as).op = some v) (hd : decodeOp v = .ok i) :
    runActions (as ++ fillIn 0 p ++ [.issue]) s = exec i (afterInput s as p) := by
  have hfill := runActions_fillIn p 0 [.issue] { s with req := writtenAll s.req as } hw (by omega)
  rw [(buffers_writtenAll s.req has).1] at hfill
  rw [List.append_assoc, runActions_writes _ hw has, hfill]
  exact runActions_issue_decoded (s := afterInput s as p) hw hop hd

/-- A request with its bytes in `RAW` runs its operation on the state it writes (R84). -/
theorem runActions_raw {r : List Byte} (hw : s.walk = none) (has : ∀ a ∈ as, ∃ q v, a.target = some (.req q, v))
    (hr : r.length ≤ 522) (hop : (writtenAll s.req as).op = some v) (hd : decodeOp v = .ok i) :
    runActions (as ++ fillRaw 0 r ++ [.issue]) s = exec i (afterRaw s as r) := by
  have hfill := runActions_fillRaw r 0 [.issue] { s with req := writtenAll s.req as } hw (by omega)
  rw [(buffers_writtenAll s.req has).2] at hfill
  rw [List.append_assoc, runActions_writes _ hw has, hfill]
  exact runActions_issue_decoded (s := afterRaw s as r) hw hop hd

/-- A request without bytes runs its operation on the state it writes (R84). -/
theorem runActions_scalars (hw : s.walk = none) (has : ∀ a ∈ as, ∃ q v, a.target = some (.req q, v))
    (hop : (writtenAll s.req as).op = some v) (hd : decodeOp v = .ok i) :
    runActions (as ++ [.issue]) s = exec i { s with req := writtenAll s.req as } := by
  rw [runActions_writes _ hw has]
  exact runActions_issue_decoded (s := { s with req := writtenAll s.req as }) hw hop hd

theorem afterInput_input {p : List Byte} (hp : p.length ≤ 255)
    (hlen : (writtenAll s.req as).inlen = some (BitVec.ofNat 16 p.length)) : (afterInput s as p).Input p :=
  input_of_writeAll hp hlen rfl

theorem afterRaw_raw {r : List Byte} (hr : r.length ≤ 522)
    (hlen : (writtenAll s.req as).rawlen = some (BitVec.ofNat 10 r.length)) : (afterRaw s as r).Raw r r.length :=
  raw_of_writeAll hr hlen rfl

end

/-- Settles O51: the state the writes leave presents the operands of CKSUM. -/
theorem cksumRequestRuns : Obligations.CksumRequestRuns := by
  unfold Obligations.CksumRequestRuns
  intro s hs dl p hp hw
  rw [Request.actions, runActions_input (v := 0#3) hw (by simp [HostAction.target]) hp (by rfl) rfl,
    exec_cksum_of (afterInput_input hp (by rfl)) (by rfl) (by rfl)]
  exact ⟨_, rfl, rfl, rfl⟩

/-! ### Requests that end as the operation does elsewhere -/

/-- An operation that ends in one state ends in every state that presents the same operands, with the same results. -/
theorem exec_ends_alike {i : Instr} {s s' t' : State} (h : SameOperands i s s') (ht' : exec i s' = .next t') :
    ∃ t t', exec i s = .next t ∧ exec i s' = .next t' ∧ t.res = t'.res := by
  have hreport := operationReadsOnlyItsOperands i s s' h
  rw [ht'] at hreport
  cases hs : exec i s with
  | next t => exact ⟨t, t', rfl, ht', by rwa [hs] at hreport⟩
  | fault | refused =>
    rw [hs] at hreport
    exact hreport.elim

/-- Two states that present the same bytes up to `RAWLEN` present the same request to DESTUFF and DECODE (R82). -/
theorem State.Raw.sameRaw {s s' : State} {f : List Byte} (h : s.Raw f f.length) (h' : s'.Raw f f.length) :
    SameRaw s s' := by
  obtain ⟨-, hcap, hlen, hcell⟩ := h
  obtain ⟨-, -, hlen', hcell'⟩ := h'
  refine ⟨hlen.trans hlen'.symm, fun n k hn hk => ?_⟩
  obtain rfl : BitVec.ofNat 10 f.length = n := Option.some.inj (hlen.symm.trans hn)
  have hbelow : k < f.length := hk.trans_le ((BitVec.toNat_ofNat ..).trans_le (Nat.mod_le ..))
  rw [hcell k hbelow, hcell' k hbelow]

/-- DESTUFF ends on every buffer of values (R126). -/
theorem State.Raw.exec_destuff_next {s : State} {f : List Byte} {cur : BitVec 10} (h : s.Raw f f.length)
    (hcur : s.req.cur = some cur) : ∃ t, exec .destuff s = .next t := by
  have htotal := destuff_total h.read_ne_none cur.toNat
  obtain ⟨-, hcap, hlen, -⟩ := h
  rw [exec_destuff_of hcap hlen hcur]
  rcases htotal with ⟨b, nx, hd⟩ | hd <;> rw [hd]
  · exact ⟨_, rfl⟩
  · exact ⟨_, rfl⟩

/-- Settles O60: the state the writes leave presents the operands, and DESTUFF and DECODE report the same from two states
that do. -/
theorem otherRequestsRun : Obligations.OtherRequestsRun := by
  unfold Obligations.OtherRequestsRun
  refine ⟨fun s p hp hw => ?stuff, fun s a c p hp hw => ?encode, fun s a c n hn hw => ?encodeLen,
    fun s s' r cur hw hraw hcur => ?destuff, fun s s' r m hw hraw hmax => ?decode⟩
  case stuff =>
    rw [Request.actions, runActions_input (v := 1#3) hw (by simp [HostAction.target]) hp (by rfl) rfl,
      exec_stuff_of (afterInput_input hp (by rfl))]
    exact ⟨_, rfl, rfl, rfl, Memory.read_ofBytes _⟩
  case encode =>
    rw [Request.actions, runActions_input (v := 3#3) hw (by simp [HostAction.target]) hp (by rfl) rfl,
      exec_encode_of (afterInput_input hp (by rfl)) (by rfl) (by rfl)]
    exact ⟨_, rfl, rfl, rfl, Memory.read_ofBytes _⟩
  case encodeLen =>
    have hactions : (Request.encodeLen a c n).actions =
        [.writeOp 3#3, .writeAddr a, .writeCmd c, .writeInlen n] ++ [.issue] := rfl
    rw [hactions, runActions_scalars (v := 3#3) hw (by simp [HostAction.target]) (by rfl) rfl,
      exec_encode_above (by rfl) hn]
    exact ⟨_, rfl, rfl⟩
  case destuff =>
    obtain ⟨t', ht'⟩ := hraw.exec_destuff_next hcur
    have hr : r.length ≤ 522 := hraw.2.1
    rw [Request.actions, runActions_raw (v := 2#3) hw (by simp [HostAction.target]) hr (by rfl) rfl]
    exact exec_ends_alike ⟨(afterRaw_raw hr rfl).sameRaw hraw, hcur.symm⟩ ht'
  case decode =>
    obtain ⟨t', ht', -⟩ := decodeEndsOnEveryBuffer s' r m hraw hmax
    have hr : r.length ≤ 522 := hraw.2.1
    rw [Request.actions, runActions_raw (v := 4#3) hw (by simp [HostAction.target]) hr (by rfl) rfl]
    exact exec_ends_alike ⟨(afterRaw_raw hr rfl).sameRaw hraw, hmax.symm⟩ ht'

end Sys2Proof.Machine
end

section
/-! PROOFS. DECODE and DESTUFF, taken one wire symbol at a time, end as the whole operation does (R21, R34, R170; log
entry 2). -/

namespace Sys2Proof.Machine

/-! ### DECODE from START -/

/-- The rule of DECODE once its operands are read (R172). -/
def decodeOn (raw : Memory) (n : Nat) (m : Byte) : Except Stop ResRegs := do
  let (h, pay) ← decodeFrame raw n m
  .ok (frameResult h pay)

theorem ite_error_bind {α β : Type} {c : Prop} [Decidable c] {e : Stop} {x : Except Stop α} {f : α → Except Stop β} :
    ((if c then .error e else x) >>= f) = if c then .error e else x >>= f := by
  split <;> rfl

section
variable (raw : Memory) (n : Nat) (m : Byte)

/-- The rule of DECODE from the declared length on (R175, R176). -/
def dlenOn (a c st : Byte) (cur : Nat) : Except Stop ResRegs := do
  let (d, cur) ← destuff raw n cur
  payloadOn raw n (min d.toNat m.toNat) cur ⟨a, c, st, d⟩ []

/-- The rule of DECODE from the status on (R175). -/
def statusOn (a c : Byte) (cur : Nat) : Except Stop ResRegs := do
  let (st, cur) ← destuff raw n cur
  dlenOn raw n m a c st cur

/-- The rule of DECODE from the command on (R175). -/
def cmdOn (a : Byte) (cur : Nat) : Except Stop ResRegs := do
  let (c, cur) ← destuff raw n cur
  statusOn raw n m a c cur

/-- Past the start marker the rule is the four header fields, then PAYLOAD and what follows (R175). -/
theorem decodeOn_header (hn : 7 ≤ n) (h0 : raw.read 0 = some 0x7E#8) :
    decodeOn raw n m = (do
      let (a, cur) ← destuff raw n 1
      cmdOn raw n m a cur) := by
  simp only [decodeOn, decodeFrame_start hn h0, headerFields, cmdOn, statusOn, dlenOn, payloadOn, checksumOn,
    bind_assoc, ite_error_bind, ok_bind]

end

/-- A state in HEADER with these bytes in hand (R175). -/
def inHeader (t : State) (cur : BitVec 10) (got : List Byte) : State := { t with walk := some (.header cur got) }

/-- DECODE from START, run: the marker, four header fields, then at most 258 steps (R174 to R181). -/
theorem runsTo_start {t : State} {n : Nat} {m : Byte} (hw : t.walk = some (.start 0#10)) (hlen : rawLength t = .ok n)
    (hmax : t.req.maxlen = some m) (hn : 7 ≤ n) : RunsTo t 262 (decodeOn t.req.rawBuf n m) := by
  have hbelow : (Walk.start 0#10).cursor.toNat < n := show 0 < n by omega
  rcases step_marker hw rfl hlen hbelow with ⟨hbot, hstep⟩ | ⟨hflag, hstep⟩ | ⟨b, hb, hread, hstep⟩
  · rw [decodeOn, decodeFrame_start_fault hn hbot, error_bind]
    exact runsTo_mono (runsTo_halt hstep) (by omega)
  · obtain ⟨hstart, -⟩ := flagAtTheMarkers
    rw [hstart t 0#10 hw] at hstep
    rw [decodeOn_header _ _ _ hn hflag]
    refine runsTo_next (K := 261) hstep rfl ?_
    refine runsTo_header (t := inHeader t (0#10 + 1#10) []) (by decide) rfl hlen
      (cmdOn t.req.rawBuf n m) fun a cur _ => ?_
    refine runsTo_header (t := inHeader t cur [a]) (by simp) rfl hlen
      (statusOn t.req.rawBuf n m a) fun c cur _ => ?_
    refine runsTo_header (t := inHeader t cur [a, c]) (by simp) rfl hlen
      (dlenOn t.req.rawBuf n m a c) fun st cur _ => ?_
    exact runsTo_lastHeader (t := inHeader t cur [a, c, st]) rfl hlen hmax
  · rw [decodeOn, decodeFrame_noStart hn hread hb, error_bind]
    exact runsTo_mono (runsTo_halt hstep) (by omega)

/-! ### DESTUFF from `CUR` -/

/-- DESTUFF, run: its one field, at the cursor (R33, R126). -/
theorem step_destuff {t : State} {n : Nat} {cur : BitVec 10} (hw : t.walk = some (.destuff cur))
    (hlen : rawLength t = .ok n) :
    step t = conclude t (do
      let (b, nx) ← destuff t.req.rawBuf n cur.toNat
      .ok { ResRegs.blank with rbyte := some b, rnext := some (BitVec.ofNat 10 nx) }) := by
  by_cases hc : n ≤ cur.toNat
  · rw [destuff_past hc]
    exact step_end hw hlen hc
  · rcases step_field hw rfl hlen (Nat.lt_of_not_le hc) with ⟨b, first, u, hd, -, hstep⟩ | ⟨e, hd, hstep⟩
    · have hnext : cur + BitVec.ofNat 10 u = BitVec.ofNat 10 (cur.toNat + u) := by
        rw [BitVec.ofNat_add, BitVec.ofNat_toNat, BitVec.setWidth_eq]
      change destuff t.req.rawBuf n cur.toNat = .ok (b, cur.toNat + u) at hd
      rw [hstep, takeSymbol, symbolMove_destuff _ _ _ hw, hd, hnext]
      rfl
    · change destuff t.req.rawBuf n cur.toNat = .error e at hd
      rw [hstep, hd]
      rfl

/-! ### The openings -/

/-- What an opening says of the operation: where it answers a state, `P` of that state; where it stops, that the operation
stops there too. -/
def OpensAs (P : State → Prop) (opening whole : Outcome) : Prop :=
  match opening with
  | .next t => P t
  | .fault f => whole = .fault f
  | .refused r => whole = .refused r

/-- A stop that is no error of the block stops the opening and the operation alike. -/
theorem opensAs_halt {P : State → Prop} {s : State} {e : Stop} (he : ∀ k, e ≠ .raised k) :
    OpensAs P (halt s e) (halt s e) := by
  cases e with
  | raised k => exact absurd rfl (he k)
  | fault f => rfl
  | refused r => rfl

theorem rawLength_error_not_raised {s : State} {e : Stop} (h : rawLength s = .error e) (k : ErrKind) :
    e ≠ .raised k := by
  rintro rfl
  exact rawLength_not_raised s k h

/-- A DECODE opened, run to its end, is the whole DECODE. -/
theorem openDecode_opensAs (s : State) :
    OpensAs (fun t => ∃ k, k ≤ 262 ∧ Host.Core.run core k t = exec .decode s) (openDecode s) (exec .decode s) := by
  have hexec : exec .decode s = conclude s (do
      let n ← rawLength s
      let m ← operand (.req .maxlen) s.req.maxlen
      decodeOn s.req.rawBuf n m) := rfl
  cases hlen : rawLength s with
  | error e =>
    simp only [hexec, openDecode, hlen, error_bind, conclude_error]
    exact opensAs_halt (rawLength_error_not_raised hlen)
  | ok n =>
    cases hmax : s.req.maxlen with
    | none =>
      simp only [hexec, openDecode, hlen, hmax, operand_none, ok_bind, error_bind, conclude_error]
      exact opensAs_halt nofun
    | some m =>
      simp only [hexec, openDecode, hlen, hmax, operand_some, ok_bind]
      by_cases hn : n < 7
      · rw [if_pos hn, decodeOn, decodeFrame_short hn]
        exact ⟨0, Nat.zero_le _, rfl⟩
      · rw [if_neg hn]
        obtain ⟨k, hk, hrun⟩ := runsTo_start (t := openWalk (.start 0#10) s) rfl hlen hmax (by omega)
        exact ⟨k, hk, hrun.trans (conclude_congr rfl _)⟩

/-- A DESTUFF opened and run by one step is the whole DESTUFF. -/
theorem openDestuff_opensAs (s : State) :
    OpensAs (fun t => step t = exec .destuff s) (openDestuff s) (exec .destuff s) := by
  cases hlen : rawLength s with
  | error e =>
    simp only [exec, execDestuff, openDestuff, hlen, error_bind, conclude_error]
    exact opensAs_halt (rawLength_error_not_raised hlen)
  | ok n =>
    cases hcur : s.req.cur with
    | none =>
      simp only [exec, execDestuff, openDestuff, hlen, hcur, operand_none, ok_bind, error_bind, conclude_error]
      exact opensAs_halt nofun
    | some cur =>
      simp only [exec, execDestuff, openDestuff, hlen, hcur, operand_some, ok_bind]
      exact (step_destuff (t := openWalk (.destuff cur) s) rfl hlen).trans (conclude_congr rfl _)

/-- Settles O59: each opening ends in a state from which the phases run the rule of the operation, or it stops where the
operation does. -/
theorem symbolBySymbolIsTheAtomicOperation : Obligations.SymbolBySymbolIsTheAtomicOperation := by
  unfold Obligations.SymbolBySymbolIsTheAtomicOperation
  exact ⟨openDecode_opensAs, openDestuff_opensAs⟩

end Sys2Proof.Machine
end
